-- ==== Sys2Proof/Word.lean ====
section
/-!
DEFINITION. The word types of the spec (00_scope.md R5, R6): every value is an unsigned bit vector, bit 0 the least significant.
-/

namespace Sys2Proof

/-- A byte (R6). -/
abbrev Byte := BitVec 8

/-- A 32-bit value: a command word, the x86_32 lane, a seed, a total length (R5). -/
abbrev Word32 := BitVec 32

/-- A 64-bit value: a lane of x64_128 (R5). -/
abbrev Word64 := BitVec 64

/-- A 128-bit payload, `WDATA` or `RDATA` (R5). -/
abbrev Payload := BitVec 128

end Sys2Proof
end

