-- ==== Sys2Proof/Machine/Bytes.lean ====
section
/-!
DEFINITION. Bytes, byte lanes and little-endian assembly (00_scope.md R8, 20_memory.md R41, R42).
-/

namespace Sys2Proof.Machine

/-- Byte `i` of a value, bits `[8i+7:8i]`; `WB(i)` of R8 and R41 when the value is `WDATA`. -/
def byteAt {w : Nat} (v : BitVec w) (i : Nat) : Byte :=
  v.extractLsb' (8 * i) 8

/-- `LE(b0, ..., b(n-1))` at width `w`: the earliest byte is the least significant, and `LE()` is 0 (R8, R42). -/
def le (w : Nat) : List Byte → BitVec w
  | [] => 0
  | b :: bs => (le w bs <<< 8) ||| b.setWidth w

/-- The first `n` lanes of a payload in stream order: `WB(0)`, ..., `WB(n-1)` (R41). -/
def lanes (v : Payload) (n : Nat) : List Byte :=
  (List.range n).map (byteAt v)

/-- The bytes of `xs` in an `n`-byte buffer, the missing ones 0 (10_state.md R23). -/
def padded (n : Nat) (xs : List Byte) : Vector Byte n :=
  Vector.ofFn fun i => xs.getD i.val 0

end Sys2Proof.Machine
end

