-- ==== Sys2Proof/Config.lean ====
section
/-!
DEFINITION. The configuration: the fixed parameters of 00_scope.md R5 and the record of mixing constants (R5, 93_implementation_defined.md
U13). The spec's values of the record are `Sys2Proof.Machine.mmh3c`, in Machine/Primitives.lean. Nothing is left open.
-/

namespace Sys2Proof

/-- `BLOCK32`: bytes of one x86_32 block (R5). -/
abbrev Config.block32 : Nat := 4

/-- `BLOCK128`: bytes of one x64_128 block (R5). -/
abbrev Config.block128 : Nat := 16

/-- `CARRYMAX32`: the most bytes bank 32 buffers (R5). -/
abbrev Config.carryMax32 : Nat := 3

/-- `CARRYMAX128`: the most bytes bank 128 buffers (R5, 90_conflicts.md C3). -/
abbrev Config.carryMax128 : Nat := 15

/-- The numbers of the x86_32 configuration, named as R93 names them. -/
structure X86Constants where
  /-- `C1_32`, first multiplier of `SCR32`. -/
  c1 : Word32
  /-- `C2_32`, second multiplier of `SCR32`. -/
  c2 : Word32
  /-- `R1_32`, rotation of `SCR32`. -/
  r1 : Nat
  /-- `R2_32`, rotation of `MIX32`. -/
  r2 : Nat
  /-- `M_32`, multiplier of `MIX32`. -/
  m : Word32
  /-- `N_32`, addend of `MIX32`. -/
  n : Word32
  /-- `F1_32`, first multiplier of `FMIX32`. -/
  f1 : Word32
  /-- `F2_32`, second multiplier of `FMIX32`. -/
  f2 : Word32
  /-- First shift of `FMIX32`. -/
  s1 : Nat
  /-- Second shift of `FMIX32`. -/
  s2 : Nat
  /-- Third shift of `FMIX32`. -/
  s3 : Nat
deriving DecidableEq, Repr

/-- The numbers of the x64_128 configuration, named as R94 names them. -/
structure X64Constants where
  /-- `C1_64`, first multiplier of `SCR64A`, second of `SCR64B`. -/
  c1 : Word64
  /-- `C2_64`, second multiplier of `SCR64A`, first of `SCR64B`. -/
  c2 : Word64
  /-- `RA_64`, rotation of `SCR64A`. -/
  ra : Nat
  /-- `RB_64`, rotation of `SCR64B`. -/
  rb : Nat
  /-- `RH1_64`, rotation of lane 1 in `MIX128`. -/
  rh1 : Nat
  /-- `RH2_64`, rotation of lane 2 in `MIX128`. -/
  rh2 : Nat
  /-- `M_64`, multiplier of both lanes in `MIX128`. -/
  m : Word64
  /-- `N1_64`, addend of lane 1 in `MIX128`. -/
  n1 : Word64
  /-- `N2_64`, addend of lane 2 in `MIX128`. -/
  n2 : Word64
  /-- `F1_64`, first multiplier of `FMIX64`. -/
  f1 : Word64
  /-- `F2_64`, second multiplier of `FMIX64`. -/
  f2 : Word64
  /-- First shift of `FMIX64`. -/
  s1 : Nat
  /-- Second shift of `FMIX64`. -/
  s2 : Nat
  /-- Third shift of `FMIX64`. -/
  s3 : Nat
deriving DecidableEq, Repr

/-- The one configuration record: the mixing constants of both configurations. -/
structure Config where
  /-- x86_32 (R93). -/
  x86 : X86Constants
  /-- x64_128 (R94). -/
  x64 : X64Constants
deriving DecidableEq, Repr

end Sys2Proof
end

