-- ==== Sys2Proof/Syntax.lean ====
section
/-!
DEFINITION. The syntax of command set CMD-1 (30_encoding.md): what crosses the command port, and the fifteen commands, one
constructor for each row of opcode_table.json, with the operands R66 gives them.
-/

namespace Sys2Proof

/-- A command transaction: the command word `CMD` and the write payload `WDATA` (30_encoding.md R60, 20_memory.md R55). -/
structure Command where
  /-- The 32-bit command word. -/
  cmd : Word32
  /-- The 128-bit write payload. -/
  wdata : Payload
deriving DecidableEq, Repr

/-- The three digest forms of RESULT128, the legal values of `TR` (30_encoding.md R64). -/
inductive DigestForm where
  /-- `TR` = 0, mnemonic `RESULT128`: all 16 bytes. -/
  | full
  /-- `TR` = 1, mnemonic `RESULT128.64`: the first 8 bytes. -/
  | first8
  /-- `TR` = 2, mnemonic `RESULT128.32`: the first 4 bytes. -/
  | first4
deriving DecidableEq, Repr

/-- The fifteen commands. A PUSH carries its bytes in stream order; their number is `NB` (log entry 6). -/
inductive Instr where
  /-- NOP (43_nop_and_laws.md R140). -/
  | nop
  /-- INIT32 (41_bank32_commands.md R120). -/
  | init32 (seed : Word32)
  /-- PUSH32 (R121): the bytes `WB(0)` to `WB(NB-1)`. -/
  | push32 (bytes : List Byte)
  /-- RESULT32 (R122). -/
  | result32 (total : Word32)
  /-- RDH32 (R123). -/
  | rdh32
  /-- RDC32 (R124). -/
  | rdc32
  /-- WRH32 (R125). -/
  | wrh32 (h : Word32)
  /-- WRC32 (R126): the packed carry. -/
  | wrc32 (w : Word32)
  /-- INIT128 (42_bank128_commands.md R130). -/
  | init128 (seed : Word32)
  /-- PUSH128 (R131): the bytes `WB(0)` to `WB(NB-1)`. -/
  | push128 (bytes : List Byte)
  /-- RESULT128, RESULT128.64, RESULT128.32 (R132). -/
  | result128 (form : DigestForm) (total : Word32)
  /-- RDH128 (R133). -/
  | rdh128
  /-- RDC128 (R134). -/
  | rdc128
  /-- WRH128 (R135). -/
  | wrh128 (h1 h2 : Word64)
  /-- WRC128 (R136): the packed carry, `c1` in the low half. -/
  | wrc128 (w : Payload)
deriving DecidableEq, Repr

end Sys2Proof
end

