-- ==== Sys2Proof/WellFormed.lean ====
section
/-!
DEFINITION. Which terms of `Instr` are commands of CMD-1. The types hold every operand but one to its legal range; the check is the
byte count of a PUSH (30_encoding.md R65).
-/

namespace Sys2Proof

/-- A beat is legal when it carries at most one block: `NB` 0 to 4 for bank 32, 0 to 16 for bank 128 (R65). -/
def Instr.wellFormed : Instr → Bool
  | .nop => true
  | .init32 _ => true
  | .push32 bytes => bytes.length ≤ Config.block32
  | .result32 _ => true
  | .rdh32 => true
  | .rdc32 => true
  | .wrh32 _ => true
  | .wrc32 _ => true
  | .init128 _ => true
  | .push128 bytes => bytes.length ≤ Config.block128
  | .result128 _ _ => true
  | .rdh128 => true
  | .rdc128 => true
  | .wrh128 _ _ => true
  | .wrc128 _ => true

end Sys2Proof
end

