-- ==== Sys2Proof/Decode.lean ====
section
/-!
DEFINITION. The decoder of 30_encoding.md R68, total on all 2^32 command words, and the encoder of R60 and R72.
-/

namespace Sys2Proof

open Sys2Proof.Machine

/-- Why a command word is illegal, in the cases of 30_encoding.md R69. The response does not tell them apart (log entry 13). -/
inductive Illegal where
  /-- A bit of `RSV` is 1. -/
  | reservedBits
  /-- `OP` is 8 to 15. -/
  | reservedOp
  /-- `VAR` is 2 or 3. -/
  | reservedVar
  /-- NOP with another field that is not 0. -/
  | nopField
  /-- `NB` is not 0 outside PUSH. -/
  | nbUnused
  /-- `TR` is not 0 outside RESULT128. -/
  | trUnused
  /-- `TR` is 3. -/
  | reservedTr
  /-- PUSH32 with `NB` above 4, or PUSH128 with `NB` above 16. -/
  | nbTooLarge
deriving DecidableEq, Repr

/-- What the decoder answers. -/
inductive Decoded where
  /-- One of the fifteen commands with its operands. -/
  | ok (i : Instr)
  /-- ILLEGAL, with the case of R69. -/
  | illegal (why : Illegal)
deriving DecidableEq, Repr

/-- `OP`, bits `[3:0]` (R60). -/
def fieldOp (c : Word32) : Nat := (c.extractLsb' 0 4).toNat

/-- `VAR`, bits `[5:4]` (R60). -/
def fieldVar (c : Word32) : Nat := (c.extractLsb' 4 2).toNat

/-- `TR`, bits `[7:6]` (R60). -/
def fieldTr (c : Word32) : Nat := (c.extractLsb' 6 2).toNat

/-- `NB`, bits `[12:8]` (R60). -/
def fieldNb (c : Word32) : Nat := (c.extractLsb' 8 5).toNat

/-- `RSV`, bits `[31:13]` (R60). -/
def fieldRsv (c : Word32) : Nat := (c.extractLsb' 13 19).toNat

/-- The digest form that a legal `TR` selects (R64). -/
def formOfTr : Nat → DigestForm
  | 0 => .full
  | 1 => .first8
  | _ => .first4

/-- The command named by `(OP, VAR)`, with its operands taken from the payload (R66, R68). -/
def decodeNamed (op var tr nb : Nat) (w : Payload) : Decoded :=
  match op, var with
  | 1, 0 => .ok (.init32 (w.extractLsb' 0 32))
  | 2, 0 => .ok (.push32 (lanes w nb))
  | 3, 0 => .ok (.result32 (w.extractLsb' 0 32))
  | 4, 0 => .ok .rdh32
  | 5, 0 => .ok .rdc32
  | 6, 0 => .ok (.wrh32 (w.extractLsb' 0 32))
  | 7, 0 => .ok (.wrc32 (w.extractLsb' 0 32))
  | 1, 1 => .ok (.init128 (w.extractLsb' 0 32))
  | 2, 1 => .ok (.push128 (lanes w nb))
  | 3, 1 => .ok (.result128 (formOfTr tr) (w.extractLsb' 0 32))
  | 4, 1 => .ok .rdh128
  | 5, 1 => .ok .rdc128
  | 6, 1 => .ok (.wrh128 (w.extractLsb' 0 64) (w.extractLsb' 64 64))
  | 7, 1 => .ok (.wrc128 w)
  | _, _ => .illegal .reservedOp

/-- The decode algorithm of R68, test by test. -/
def decode (c : Command) : Decoded :=
  let op := fieldOp c.cmd
  let var := fieldVar c.cmd
  let tr := fieldTr c.cmd
  let nb := fieldNb c.cmd
  if fieldRsv c.cmd ≠ 0 then .illegal .reservedBits
  else if 8 ≤ op then .illegal .reservedOp
  else if 2 ≤ var then .illegal .reservedVar
  else if op = 0 then (if var = 0 ∧ tr = 0 ∧ nb = 0 then .ok .nop else .illegal .nopField)
  else if op ≠ 2 ∧ nb ≠ 0 then .illegal .nbUnused
  else if tr ≠ 0 ∧ ¬(op = 3 ∧ var = 1) then .illegal .trUnused
  else if tr = 3 then .illegal .reservedTr
  else if op = 2 ∧ var = 0 ∧ Config.block32 < nb then .illegal .nbTooLarge
  else if op = 2 ∧ var = 1 ∧ Config.block128 < nb then .illegal .nbTooLarge
  else decodeNamed op var tr nb c.wdata

/-- A command word from its fields, `RSV` 0 (R60). -/
def commandWord (op var tr nb : Nat) : Word32 :=
  0#19 ++ BitVec.ofNat 5 nb ++ BitVec.ofNat 2 tr ++ BitVec.ofNat 2 var ++ BitVec.ofNat 4 op

/-- The `TR` value of a digest form (R64). -/
def trOfForm : DigestForm → Nat
  | .full => 0
  | .first8 => 1
  | .first4 => 2

/-- The command word and the payload of a command; a payload bit the command does not use is 0 (R72). -/
def encode : Instr → Command
  | .nop => ⟨commandWord 0 0 0 0, 0⟩
  | .init32 seed => ⟨commandWord 1 0 0 0, seed.setWidth 128⟩
  | .push32 bytes => ⟨commandWord 2 0 0 bytes.length, le 128 bytes⟩
  | .result32 total => ⟨commandWord 3 0 0 0, total.setWidth 128⟩
  | .rdh32 => ⟨commandWord 4 0 0 0, 0⟩
  | .rdc32 => ⟨commandWord 5 0 0 0, 0⟩
  | .wrh32 h => ⟨commandWord 6 0 0 0, h.setWidth 128⟩
  | .wrc32 w => ⟨commandWord 7 0 0 0, w.setWidth 128⟩
  | .init128 seed => ⟨commandWord 1 1 0 0, seed.setWidth 128⟩
  | .push128 bytes => ⟨commandWord 2 1 0 bytes.length, le 128 bytes⟩
  | .result128 form total => ⟨commandWord 3 1 (trOfForm form) 0, total.setWidth 128⟩
  | .rdh128 => ⟨commandWord 4 1 0 0, 0⟩
  | .rdc128 => ⟨commandWord 5 1 0 0, 0⟩
  | .wrh128 h1 h2 => ⟨commandWord 6 1 0 0, h2 ++ h1⟩
  | .wrc128 w => ⟨commandWord 7 1 0 0, w⟩

/-- The command transaction whose bits are `w`: the command word in bits 31 to 0, its payload from bit 32 on; a bit at or above
`nbits` is 0 (log entry 5). -/
def commandOfBits (nbits w : Nat) : Command :=
  let v := w % 2 ^ nbits
  ⟨BitVec.ofNat 32 v, BitVec.ofNat 128 (v / 2 ^ 32)⟩

/-- What the decoder reads from an instruction whose bits are `w`, numbered as opcode_table.json numbers them. -/
def decodeTableWord (nbits w : Nat) : Option Instr :=
  match decode (commandOfBits nbits w) with
  | .ok i => some i
  | .illegal _ => none

end Sys2Proof
end

