-- ==== Sys2Proof/Machine/State.lean ====
section
/-!
DEFINITION. The state of MMH3C: the two banks of 10_state.md R20 and nothing that R28 excludes; what is at the ports of 20_memory.md R55;
the two together as the host's `State`. The reset state of R34. The command stream is the host's (R28 (h), R29) and stands nowhere
here.
-/

namespace Sys2Proof.Machine

open Sys2Proof

/-- Bank 32 (R20, R21). The 2-bit count `CNT32` is a number below 4 (R90: counts are small natural numbers). -/
structure Bank32 where
  /-- `H32`, the running hash of the x86_32 stream. -/
  h : Word32
  /-- `CNT32`, the number of buffered bytes. -/
  cnt : Fin 4
  /-- `BUF32[0]` to `BUF32[2]`, oldest first. -/
  buf : Vector Byte 3
deriving DecidableEq, Repr

/-- Bank 128 (R20, R22). The 4-bit count `CNT128` is a number below 16. -/
structure Bank128 where
  /-- `H1`, running lane 1. -/
  h1 : Word64
  /-- `H2`, running lane 2. -/
  h2 : Word64
  /-- `CNT128`, the number of buffered bytes. -/
  cnt : Fin 16
  /-- `BUF128[0]` to `BUF128[14]`, oldest first. -/
  buf : Vector Byte 15
deriving DecidableEq, Repr

/-- The four response statuses of 30_encoding.md R67. -/
inductive Status where
  /-- 0: the command executed. -/
  | ok
  /-- 1: the command word is not a legal encoding. -/
  | illegalCommand
  /-- 2: WRC was given a malformed length marker. -/
  | invalidCarry
  /-- 3: RESULT was given a total length inconsistent with the carry count. -/
  | invalidLength
deriving DecidableEq, Repr

/-- A response transaction (20_memory.md R55). -/
structure Response where
  /-- `STATUS`. -/
  status : Status
  /-- `RDATA`. -/
  rdata : Payload
deriving DecidableEq, Repr

/-- What the host can do at the ports: it presents a command, or it asserts `RESET` (20_memory.md R55,
70_reset_and_hazards.md R180, R191). -/
inductive HostAction where
  /-- A command transaction. -/
  | command (c : Command)
  /-- The reset request. -/
  | reset
deriving DecidableEq, Repr

/-- The whole architectural state of MMH3C (R20): two banks of registers and nothing else (R28 to R31). -/
structure Block where
  /-- `H32`, `CNT32`, `BUF32`. -/
  bank32 : Bank32
  /-- `H1`, `H2`, `CNT128`, `BUF128`. -/
  bank128 : Bank128
deriving DecidableEq, Repr

/-- What is at the ports (20_memory.md R55); the model's own fields (log entries 1 and 2). -/
structure Ports where
  /-- The one transaction that the host presents now, if it presents one (R29: it presents commands one at a time). -/
  presented : Option HostAction
  /-- The responses since the last reset, oldest first. -/
  responses : List Response
deriving DecidableEq, Repr

/-- The block and its ports. -/
structure State extends Block, Ports
deriving DecidableEq, Repr

/-- A fault would be a stop of the machine. The spec gives none: every error is an answer, after which the block goes on
(60_exceptions.md R164), so this type has no constructor (log entry 7). Safe: nothing can stop here. -/
inductive Fault where
deriving DecidableEq, Repr

/-- Why a step has no meaning. -/
inductive Refusal where
  /-- Raised only by an arm of `exec` whose instruction has no meaning yet; no arm of this model answers it. Safe: a refused step
  claims nothing. -/
  | notModelled (mnemonic : String)
deriving DecidableEq, Repr

/-- Bank 32 after reset: every register 0 (R34). -/
def Bank32.reset : Bank32 := { h := 0, cnt := 0, buf := Vector.replicate 3 0 }

/-- Bank 128 after reset: every register 0 (R34). -/
def Bank128.reset : Bank128 := { h1 := 0, h2 := 0, cnt := 0, buf := Vector.replicate 15 0 }

/-- The block after reset (10_state.md R34, 70_reset_and_hazards.md R181). -/
def Block.reset : Block := { bank32 := Bank32.reset, bank128 := Bank128.reset }

/-- The machine right after reset (R34, R181), nothing presented and nothing answered. -/
def State.reset : State :=
  { Block.reset with presented := none, responses := [] }

end Sys2Proof.Machine
end

