-- ==== Sys2Proof/Machine/Flags.lean ====
section
/-!
DEFINITION. There are no flags (10_state.md R30). The only condition a command reports is the status of its response: the codes of
30_encoding.md R67, the three errors of 60_exceptions.md R160, and the check behind `INVALID_LENGTH`.
-/

namespace Sys2Proof.Machine

open Sys2Proof

/-- The 2-bit `STATUS` code (R67). -/
def Status.code : Status → BitVec 2
  | .ok => 0
  | .illegalCommand => 1
  | .invalidCarry => 2
  | .invalidLength => 3

/-- The synchronous command errors (60_exceptions.md R160). -/
inductive CommandError where
  /-- R161. -/
  | illegalCommand
  /-- R162. -/
  | invalidCarry
  /-- R163. -/
  | invalidLength
deriving DecidableEq, Repr

/-- The status that reports an error (R160). -/
def CommandError.status : CommandError → Status
  | .illegalCommand => .illegalCommand
  | .invalidCarry => .invalidCarry
  | .invalidLength => .invalidLength

/-- The length check of RESULT32 (R122, R163). -/
def lengthFits32 (total : Word32) (cnt : Fin 4) : Bool :=
  total.toNat % Config.block32 == cnt.val

/-- The length check of RESULT128, the same for every digest form (R132, R163). -/
def lengthFits128 (total : Word32) (cnt : Fin 16) : Bool :=
  total.toNat % Config.block128 == cnt.val

end Sys2Proof.Machine
end

