-- ==== Sys2Proof/Machine/Primitives.lean ====
section
/-!
DEFINITION. The datapath: the values of the mixing constants (R93, R94) and the pure functions of 40_arith_primitives.md, each over any
record of constants (93_implementation_defined.md U13). The commands use the record `mmh3c`.
-/

namespace Sys2Proof.Machine

/-- The fixed values of the mixing constants (R93, R94). -/
def mmh3c : Config where
  x86 :=
    { c1 := 0xCC9E2D51, c2 := 0x1B873593, r1 := 15, r2 := 13, m := 5, n := 0xE6546B64,
      f1 := 0x85EBCA6B, f2 := 0xC2B2AE35, s1 := 16, s2 := 13, s3 := 16 }
  x64 :=
    { c1 := 0x87C37B91114253D5, c2 := 0x4CF5AD432745937F, ra := 31, rb := 33, rh1 := 27, rh2 := 31, m := 5,
      n1 := 0x0000000052DCE729, n2 := 0x0000000038495AB5,
      f1 := 0xFF51AFD7ED558CCD, f2 := 0xC4CEB9FE1A85EC53, s1 := 33, s2 := 33, s3 := 33 }

/-- Rotate left by `r`, at either lane width. -/
def rotl {w : Nat} (x : BitVec w) (r : Nat) : BitVec w :=
  (x <<< r) ||| (x >>> (w - r))

/-- `ROTL32` (R91). -/
def rotl32 (x : Word32) (r : Nat) : Word32 := rotl x r

/-- `ROTL64` (R92). -/
def rotl64 (x : Word64) (r : Nat) : Word64 := rotl x r

/-- A value xored with itself shifted right, the step of both avalanches (R97, R102). -/
def xorShift {w : Nat} (x : BitVec w) (s : Nat) : BitVec w :=
  x ^^^ (x >>> s)

/-- `SCR32`, the key scramble of x86_32 (R95). -/
def scr32 (K : Config) (k : Word32) : Word32 :=
  rotl32 (k * K.x86.c1) K.x86.r1 * K.x86.c2

/-- `MIX32`, the block mixer of x86_32 (R96). -/
def mix32 (K : Config) (h k : Word32) : Word32 :=
  rotl32 (h ^^^ scr32 K k) K.x86.r2 * K.x86.m + K.x86.n

/-- `FMIX32`, the 32-bit avalanche (R97). -/
def fmix32 (K : Config) (h : Word32) : Word32 :=
  xorShift (xorShift (xorShift h K.x86.s1 * K.x86.f1) K.x86.s2 * K.x86.f2) K.x86.s3

/-- `TAIL32`, tail folding of x86_32 (R98). -/
def tail32 (K : Config) (h : Word32) (cnt : Fin 4) (buf : Vector Byte 3) : Word32 :=
  if cnt.val = 0 then h else h ^^^ scr32 K (le 32 (buf.toList.take cnt.val))

/-- `FINAL32`, the x86_32 finalization (R99). -/
def final32 (K : Config) (h : Word32) (cnt : Fin 4) (buf : Vector Byte 3) (total : Word32) : Word32 :=
  fmix32 K (tail32 K h cnt buf ^^^ total)

/-- `SCR64A`, the scramble of the lane-1 key word (R100). -/
def scr64A (K : Config) (k : Word64) : Word64 :=
  rotl64 (k * K.x64.c1) K.x64.ra * K.x64.c2

/-- `SCR64B`, the scramble of the lane-2 key word (R100). -/
def scr64B (K : Config) (k : Word64) : Word64 :=
  rotl64 (k * K.x64.c2) K.x64.rb * K.x64.c1

/-- `MIX128`, the block mixer of x64_128: lane 1 first, lane 2 with the new lane 1 (R101, 90_conflicts.md C2). -/
def mix128 (K : Config) (h1 h2 k1 k2 : Word64) : Word64 × Word64 :=
  let n1 := (rotl64 (h1 ^^^ scr64A K k1) K.x64.rh1 + h2) * K.x64.m + K.x64.n1
  let n2 := (rotl64 (h2 ^^^ scr64B K k2) K.x64.rh2 + n1) * K.x64.m + K.x64.n2
  (n1, n2)

/-- `FMIX64`, the 64-bit avalanche (R102). -/
def fmix64 (K : Config) (k : Word64) : Word64 :=
  xorShift (xorShift (xorShift k K.x64.s1 * K.x64.f1) K.x64.s2 * K.x64.f2) K.x64.s3

/-- `TAIL128`, tail folding of x64_128: bytes 0 to 7 into lane 1, the rest into lane 2 (R103). -/
def tail128 (K : Config) (h1 h2 : Word64) (cnt : Fin 16) (buf : Vector Byte 15) : Word64 × Word64 :=
  let valid := buf.toList.take cnt.val
  ( if cnt.val > 0 then h1 ^^^ scr64A K (le 64 (valid.take 8)) else h1,
    if cnt.val > 8 then h2 ^^^ scr64B K (le 64 (valid.drop 8)) else h2 )

/-- The end of `FINAL128`, from the lanes xored with the length: cross-lane add, avalanche, cross-lane add (R104,
90_conflicts.md C1). -/
def crossAvalanche (K : Config) (u1 u2 : Word64) : Word64 × Word64 :=
  let v1 := u1 + u2
  let v2 := u2 + v1
  let w1 := fmix64 K v1
  let w2 := fmix64 K v2
  let d1 := w1 + w2
  (d1, w2 + d1)

/-- `FINAL128`, the x64_128 finalization (R104). -/
def final128 (K : Config) (h1 h2 : Word64) (cnt : Fin 16) (buf : Vector Byte 15) (total : Word32) : Word64 × Word64 :=
  let t := tail128 K h1 h2 cnt buf
  let len := total.setWidth 64
  crossAvalanche K (t.1 ^^^ len) (t.2 ^^^ len)

end Sys2Proof.Machine
end

