-- ==== Sys2Proof/Machine/Operands.lean ====
section
/-!
DEFINITION. Operand and result images: the packed carry of 10_state.md R24 to R27, the digest layout of 40_arith_primitives.md R105 and the
placing of scalars in a payload (20_memory.md R43).
-/

namespace Sys2Proof.Machine

open Sys2Proof

/-- `PACK32`: the marker in the low byte, the valid bytes right-justified against bit 31 (R24). -/
def pack32 (cnt : Fin 4) (buf : Vector Byte 3) : Word32 :=
  (le 32 (buf.toList.take cnt.val) <<< (8 * (4 - cnt.val))) ||| BitVec.ofNat 32 cnt.val

/-- The carry bytes of an image whose marker is `m`; bits that belong to no valid byte are dropped (R25). -/
def carryBytes32 (w : Word32) (m : Nat) : Vector Byte 3 :=
  Vector.ofFn fun i => if i.val < m then byteAt w (4 - m + i.val) else 0

/-- `UNPACK32`: the marker is the whole low byte, and `none` is MALFORMED (R25). -/
def unpack32 (w : Word32) : Option (Fin 4 × Vector Byte 3) :=
  if h : (byteAt w 0).toNat < 4 then some (⟨(byteAt w 0).toNat, h⟩, carryBytes32 w (byteAt w 0).toNat) else none

/-- `PACK128`: `c1` in the low half; while `cnt` is at most 8 the bytes are in `c1`, from the ninth on in `c2` above the marker
(R26). -/
def pack128 (cnt : Fin 16) (buf : Vector Byte 15) : Payload :=
  let valid := buf.toList.take cnt.val
  let marker := BitVec.ofNat 64 cnt.val
  if cnt.val ≤ 8 then
    marker ++ (le 64 valid <<< (8 * (8 - cnt.val)))
  else
    (marker ||| (le 64 (valid.drop 8) <<< (8 * (16 - cnt.val)))) ++ le 64 (valid.take 8)

/-- The carry bytes of an image whose marker is `m`. Byte `j` of `c1` is byte `j` of the image, byte `j` of `c2` is byte `8 + j`
(R27). -/
def carryBytes128 (w : Payload) (m : Nat) : Vector Byte 15 :=
  Vector.ofFn fun i =>
    if m ≤ 8 then (if i.val < m then byteAt w (8 - m + i.val) else 0)
    else if i.val < 8 then byteAt w i.val
    else if i.val < m then byteAt w (8 + (16 - m + (i.val - 8)))
    else 0

/-- `UNPACK128`: the marker is the whole byte `c2[7:0]`, and `none` is MALFORMED (R27). -/
def unpack128 (w : Payload) : Option (Fin 16 × Vector Byte 15) :=
  if h : (byteAt w 8).toNat < 16 then some (⟨(byteAt w 8).toNat, h⟩, carryBytes128 w (byteAt w 8).toNat) else none

/-- The pair `{hi, lo}` in a payload, element 0 in the low half (20_memory.md R43). -/
def pair (lo hi : Word64) : Payload := hi ++ lo

/-- `DIGEST128_BYTES` (R105). -/
def digestBytes (d1 d2 : Word64) : DigestForm → Payload
  | .full => pair d1 d2
  | .first8 => d1.setWidth 128
  | .first4 => (d1.setWidth 32).setWidth 128

end Sys2Proof.Machine
end

