-- ==== Sys2Proof/Machine/Ops.lean ====
section
/-!
DEFINITION. The shared operations: answering, TAKING AN ERROR (60_exceptions.md R164, the machine's one way of taking an exception; there is
no return from it, R165), a transaction, the reset event, and the operations on one bank that the commands are made of.
-/

namespace Sys2Proof.Machine

open Sys2Proof

/-- `respond(STATUS, RDATA)`: what a command rule ends in, the registers it leaves and its one response (00_scope.md R8, 20_memory.md
R55). -/
def respond (status : Status) (rdata : Payload) (b : Block) : Block × Response :=
  (b, ⟨status, rdata⟩)

/-- `raise <Error>`: no register is written and the response is (error code, 0) (60_exceptions.md R164). -/
def raise (e : CommandError) (b : Block) : Block × Response :=
  respond e.status 0 b

/-- One transaction by a command rule, a function of the block's registers alone: the registers it leaves, and its response at the
response port (20_memory.md R50, R55; 43_nop_and_laws.md R150). -/
def transact (rule : Block → Block × Response) (s : State) : State :=
  { toBlock := (rule s.toBlock).1, toPorts := { s.toPorts with responses := s.responses ++ [(rule s.toBlock).2] } }

/-- The reset event: whatever the registers hold and whatever is at the ports, the reset state; a command presented and not yet
executed is discarded without a response (70_reset_and_hazards.md R180, R181; log entry 4). -/
def resetEvent (_ : State) : State := State.reset

/-- Start a stream in bank 32 (R120). -/
def Bank32.start (seed : Word32) : Bank32 :=
  { h := seed, cnt := 0, buf := Vector.replicate 3 0 }

/-- One turn of the loop of R121: the byte is buffered, or completes a block, which is mixed. -/
def pushByte32 (K : Config) (b : Bank32) (x : Byte) : Bank32 :=
  if room : b.cnt.val < Config.carryMax32 then
    { b with cnt := ⟨b.cnt.val + 1, by simp only [Config.carryMax32] at room; omega⟩, buf := b.buf.set b.cnt.val x room }
  else
    { h := mix32 K b.h (le 32 (b.buf.toList ++ [x])), cnt := 0, buf := Vector.replicate 3 0 }

/-- The loop of R121 over the bytes of a beat, in lane order (20_memory.md R41). -/
def pushBytes32 (K : Config) (b : Bank32) (bytes : List Byte) : Bank32 :=
  bytes.foldl (pushByte32 K) b

/-- The digest of bank 32 for a total length (R122). -/
def Bank32.digest (K : Config) (b : Bank32) (total : Word32) : Word32 :=
  final32 K b.h b.cnt b.buf total

/-- Start a stream in bank 128: both lanes from the zero-extended seed (R130). -/
def Bank128.start (seed : Word32) : Bank128 :=
  { h1 := seed.setWidth 64, h2 := seed.setWidth 64, cnt := 0, buf := Vector.replicate 15 0 }

/-- One turn of the loop of R131. The sixteenth byte is the top byte of `k2`. -/
def pushByte128 (K : Config) (b : Bank128) (x : Byte) : Bank128 :=
  if room : b.cnt.val < Config.carryMax128 then
    { b with cnt := ⟨b.cnt.val + 1, by simp only [Config.carryMax128] at room; omega⟩, buf := b.buf.set b.cnt.val x room }
  else
    let lanes' := mix128 K b.h1 b.h2 (le 64 (b.buf.toList.take 8)) (le 64 (b.buf.toList.drop 8 ++ [x]))
    { h1 := lanes'.1, h2 := lanes'.2, cnt := 0, buf := Vector.replicate 15 0 }

/-- The loop of R131 over the bytes of a beat, in lane order. -/
def pushBytes128 (K : Config) (b : Bank128) (bytes : List Byte) : Bank128 :=
  bytes.foldl (pushByte128 K) b

/-- The two digest lanes of bank 128 for a total length (R132). -/
def Bank128.digest (K : Config) (b : Bank128) (total : Word32) : Word64 × Word64 :=
  final128 K b.h1 b.h2 b.cnt b.buf total

end Sys2Proof.Machine
end

