-- ==== Sys2Proof/Machine/Bank128Commands.lean ====
section
/-!
DEFINITION. The seven commands of bank 128 (42_bank128_commands.md), each a transaction by a rule over the block's registers alone.
-/

namespace Sys2Proof.Machine

open Sys2Proof

/-- INIT128 (R130). -/
def execInit128 (seed : Word32) (s : State) : Host.Outcome State Fault Refusal :=
  .next (transact (fun b => respond .ok 0 { b with bank128 := Bank128.start seed }) s)

/-- PUSH128 (R131). -/
def execPush128 (bytes : List Byte) (s : State) : Host.Outcome State Fault Refusal :=
  .next (transact (fun b => respond .ok 0 { b with bank128 := pushBytes128 mmh3c b.bank128 bytes }) s)

/-- RESULT128, RESULT128.64 and RESULT128.32 (R132). -/
def execResult128 (form : DigestForm) (total : Word32) (s : State) : Host.Outcome State Fault Refusal :=
  .next (transact (fun b =>
    let d := b.bank128.digest mmh3c total
    if lengthFits128 total b.bank128.cnt then respond .ok (digestBytes d.1 d.2 form) b
    else raise .invalidLength b) s)

/-- RDH128 (R133). -/
def execRdh128 (s : State) : Host.Outcome State Fault Refusal :=
  .next (transact (fun b => respond .ok (pair b.bank128.h1 b.bank128.h2) b) s)

/-- RDC128 (R134). -/
def execRdc128 (s : State) : Host.Outcome State Fault Refusal :=
  .next (transact (fun b => respond .ok (pack128 b.bank128.cnt b.bank128.buf) b) s)

/-- WRH128 (R135). -/
def execWrh128 (h1 h2 : Word64) (s : State) : Host.Outcome State Fault Refusal :=
  .next (transact (fun b => respond .ok 0 { b with bank128 := { b.bank128 with h1 := h1, h2 := h2 } }) s)

/-- WRC128 (R136). -/
def execWrc128 (w : Payload) (s : State) : Host.Outcome State Fault Refusal :=
  .next (transact (fun b =>
    match unpack128 w with
    | some carry => respond .ok 0 { b with bank128 := { b.bank128 with cnt := carry.1, buf := carry.2 } }
    | none => raise .invalidCarry b) s)

end Sys2Proof.Machine
end

