-- ==== Sys2Proof/Machine/Bank32Commands.lean ====
section
/-!
DEFINITION. The seven commands of bank 32 (41_bank32_commands.md), each a transaction by a rule over the block's registers alone.
-/

namespace Sys2Proof.Machine

open Sys2Proof

/-- INIT32 (R120). -/
def execInit32 (seed : Word32) (s : State) : Host.Outcome State Fault Refusal :=
  .next (transact (fun b => respond .ok 0 { b with bank32 := Bank32.start seed }) s)

/-- PUSH32 (R121). -/
def execPush32 (bytes : List Byte) (s : State) : Host.Outcome State Fault Refusal :=
  .next (transact (fun b => respond .ok 0 { b with bank32 := pushBytes32 mmh3c b.bank32 bytes }) s)

/-- RESULT32 (R122). -/
def execResult32 (total : Word32) (s : State) : Host.Outcome State Fault Refusal :=
  .next (transact (fun b =>
    if lengthFits32 total b.bank32.cnt then respond .ok ((b.bank32.digest mmh3c total).setWidth 128) b
    else raise .invalidLength b) s)

/-- RDH32 (R123). -/
def execRdh32 (s : State) : Host.Outcome State Fault Refusal :=
  .next (transact (fun b => respond .ok (b.bank32.h.setWidth 128) b) s)

/-- RDC32 (R124). -/
def execRdc32 (s : State) : Host.Outcome State Fault Refusal :=
  .next (transact (fun b => respond .ok ((pack32 b.bank32.cnt b.bank32.buf).setWidth 128) b) s)

/-- WRH32 (R125). -/
def execWrh32 (h : Word32) (s : State) : Host.Outcome State Fault Refusal :=
  .next (transact (fun b => respond .ok 0 { b with bank32 := { b.bank32 with h := h } }) s)

/-- WRC32 (R126). -/
def execWrc32 (w : Word32) (s : State) : Host.Outcome State Fault Refusal :=
  .next (transact (fun b =>
    match unpack32 w with
    | some carry => respond .ok 0 { b with bank32 := { b.bank32 with cnt := carry.1, buf := carry.2 } }
    | none => raise .invalidCarry b) s)

end Sys2Proof.Machine
end

