-- ==== Sys2Proof/Machine/Nop.lean ====
section
/-!
DEFINITION. The command of no bank (43_nop_and_laws.md R140).
-/

namespace Sys2Proof.Machine

open Sys2Proof

/-- NOP (R140). -/
def execNop (s : State) : Host.Outcome State Fault Refusal :=
  .next (transact (respond .ok 0) s)

end Sys2Proof.Machine
end

