-- ==== Sys2Proof/Machine/Dispatch.lean ====
section
/-!
DEFINITION. One command applied to one state: one arm for each constructor of `Instr`.
-/

namespace Sys2Proof.Machine

open Sys2Proof

def exec (i : Instr) (s : State) : Host.Outcome State Fault Refusal :=
  match i with
  | .nop => Sys2Proof.Machine.execNop s
  | .init32 seed => Sys2Proof.Machine.execInit32 seed s
  | .push32 bytes => Sys2Proof.Machine.execPush32 bytes s
  | .result32 total => Sys2Proof.Machine.execResult32 total s
  | .rdh32 => Sys2Proof.Machine.execRdh32 s
  | .rdc32 => Sys2Proof.Machine.execRdc32 s
  | .wrh32 h => Sys2Proof.Machine.execWrh32 h s
  | .wrc32 w => Sys2Proof.Machine.execWrc32 w s
  | .init128 seed => Sys2Proof.Machine.execInit128 seed s
  | .push128 bytes => Sys2Proof.Machine.execPush128 bytes s
  | .result128 form total => Sys2Proof.Machine.execResult128 form total s
  | .rdh128 => Sys2Proof.Machine.execRdh128 s
  | .rdc128 => Sys2Proof.Machine.execRdc128 s
  | .wrh128 h1 h2 => Sys2Proof.Machine.execWrh128 h1 h2 s
  | .wrc128 w => Sys2Proof.Machine.execWrc128 w s

end Sys2Proof.Machine
end

