-- ==== Sys2Proof/Machine/Run.lean ====
section
/-!
DEFINITION. One command transaction (20_memory.md R50), and runs: the left fold over the host's list.
-/

namespace Sys2Proof.Machine

open Sys2Proof

/-- Execute one command: decode it and apply its rule, or answer `ILLEGAL_COMMAND` (20_memory.md R50, 60_exceptions.md R161,
R166). -/
def runCommand (c : Command) (s : State) : Host.Outcome State Fault Refusal :=
  match decode c with
  | .ok i => exec i s
  | .illegal _ => .next (transact (raise .illegalCommand) s)

/-- `s` with the host presenting `a` at the ports (20_memory.md R55). -/
def present (a : HostAction) (s : State) : State :=
  { s with presented := some a }

/-- Go on from the next state, if there is one. -/
def andThen (o : Host.Outcome State Fault Refusal) (f : State → Host.Outcome State Fault Refusal) :
    Host.Outcome State Fault Refusal :=
  match o with
  | .next s => f s
  | .fault r => .fault r
  | .refused r => .refused r

/-- Commands one after another, in list order (10_state.md R29, 20_memory.md R50). -/
def execList : List Instr → State → Host.Outcome State Fault Refusal
  | [], s => .next s
  | i :: is, s => andThen (exec i s) (execList is)

/-- Command transactions one after another, in list order (R29, R50). -/
def runList : List Command → State → Host.Outcome State Fault Refusal
  | [], s => .next s
  | c :: cs, s => andThen (runCommand c s) (runList cs)

/-- The commands of a list, each with what it answered (R50: the n-th response belongs to the n-th command). -/
def answers : List Command → State → List (Command × Response)
  | [], _ => []
  | c :: cs, s =>
    match runCommand c s with
    | .next t => (t.responses.drop s.responses.length).map (fun r => (c, r)) ++ answers cs t
    | .fault _ => []
    | .refused _ => []

/-- The command acts on bank 32: its mnemonic ends in `32` (10_state.md R21, R32). -/
def actsOnBank32 : Instr → Bool
  | .init32 _ | .push32 _ | .result32 _ | .rdh32 | .rdc32 | .wrh32 _ | .wrc32 _ => true
  | .nop => false
  | .init128 _ | .push128 _ | .result128 _ _ | .rdh128 | .rdc128 | .wrh128 _ _ | .wrc128 _ => false

/-- The command acts on bank 128: its mnemonic ends in `128`, the truncated forms of RESULT128 included (R22, R32). -/
def actsOnBank128 : Instr → Bool
  | .init128 _ | .push128 _ | .result128 _ _ | .rdh128 | .rdc128 | .wrh128 _ _ | .wrc128 _ => true
  | .nop => false
  | .init32 _ | .push32 _ | .result32 _ | .rdh32 | .rdc32 | .wrh32 _ | .wrc32 _ => false

/-- The transaction is a command of bank 32. -/
def isBank32 (c : Command) : Bool :=
  match decode c with
  | .ok i => actsOnBank32 i
  | .illegal _ => false

/-- The transaction is a command of bank 128. -/
def isBank128 (c : Command) : Bool :=
  match decode c with
  | .ok i => actsOnBank128 i
  | .illegal _ => false

end Sys2Proof.Machine
end

