-- ==== Sys2Proof/Machine/Step.lean ====
section
/-!
DEFINITION. The step: take what the host presents (20_memory.md R50, 70_reset_and_hazards.md R180). A program is a list that the host
presents from outside, one action at a time (10_state.md R29).
-/

namespace Sys2Proof.Machine

open Sys2Proof

/-- One step: the presented transaction is taken off the port and executed. With nothing presented the block holds its state
(60_exceptions.md R173; log entry 3). -/
def step (s : State) : Host.Outcome State Fault Refusal :=
  match s.presented with
  | none => .next s
  | some .reset => .next (resetEvent s)
  | some (.command c) => runCommand c { s with presented := none }

/-- The host presents its actions one after another, each followed by the step that takes it. The list is an argument, not state
(10_state.md R28 (h), R29). -/
def driven : List HostAction → State → Host.Outcome State Fault Refusal
  | [], s => .next s
  | a :: as, s => andThen (step (present a s)) (driven as)

/-- `s` with the command whose bits are `w` presented (log entry 5). -/
def State.withFetchWord (s : State) (nbits w : Nat) : State :=
  present (.command (commandOfBits nbits w)) s

end Sys2Proof.Machine
end

