-- ==== Sys2Proof/Machine/Pseudo.lean ====
section
/-!
DEFINITION. The pseudo-commands of 30_encoding.md R73, each the list of commands it expands to, and the run that stops where R73 says a
pseudo-command stops.
-/

namespace Sys2Proof.Machine

open Sys2Proof

/-- The beats of a byte string: `ceil(n / W)` of them, beat `j` with bytes `W*j` on; one empty beat if there is no byte. -/
def beats (W : Nat) (B : List Byte) : List (List Byte) :=
  if B.length = 0 then [[]]
  else (List.range ((B.length + W - 1) / W)).map fun j => (B.drop (W * j)).take W

/-- `PROCESS32 B`. -/
def process32 (B : List Byte) : List Instr := (beats Config.block32 B).map .push32

/-- `PROCESS128 B`. -/
def process128 (B : List Byte) : List Instr := (beats Config.block128 B).map .push128

/-- `HASH32 <seed>, B`. -/
def hash32 (seed : Word32) (B : List Byte) : List Instr :=
  .init32 seed :: process32 B ++ [.result32 (BitVec.ofNat 32 B.length)]

/-- `HASH128`, `HASH128.64` and `HASH128.32`. -/
def hash128 (form : DigestForm) (seed : Word32) (B : List Byte) : List Instr :=
  .init128 seed :: process128 B ++ [.result128 form (BitVec.ofNat 32 B.length)]

/-- `SAVE32`. -/
def save32 : List Instr := [.rdh32, .rdc32]

/-- `RESTORE32 <h>, <w>`. -/
def restore32 (h w : Word32) : List Instr := [.wrh32 h, .wrc32 w]

/-- `SAVE128`. -/
def save128 : List Instr := [.rdh128, .rdc128]

/-- `RESTORE128 <h1>, <h2>, <c1>, <c2>`. -/
def restore128 (h1 h2 c1 c2 : Word64) : List Instr := [.wrh128 h1 h2, .wrc128 (pair c1 c2)]

/-- `incrementalProcess32(h, carry, bytes)`. -/
def incrementalProcess32 (h carry : Word32) (B : List Byte) : List Instr :=
  restore32 h carry ++ process32 B ++ save32

/-- `incrementalResult32(h, carry, totalLen)`. -/
def incrementalResult32 (h carry totalLen : Word32) : List Instr :=
  restore32 h carry ++ [.result32 totalLen]

/-- `incrementalProcess128(h, carry, bytes)`, each pair as its elements 0 and 1. -/
def incrementalProcess128 (h0 h1 carry0 carry1 : Word64) (B : List Byte) : List Instr :=
  restore128 h0 h1 carry0 carry1 ++ process128 B ++ save128

/-- `incrementalResult128(h, carry, totalLen)`. -/
def incrementalResult128 (h0 h1 carry0 carry1 : Word64) (totalLen : Word32) : List Instr :=
  restore128 h0 h1 carry0 carry1 ++ [.result128 .full totalLen]

/-- The last response says that a RESTORE was given a malformed carry. -/
def answeredInvalidCarry (s : State) : Bool :=
  match s.responses.getLast? with
  | some r => r.status == .invalidCarry
  | none => false

/-- The run of a pseudo-command: its commands in order, stopping after one that answers `INVALID_CARRY` (R73). -/
def runPseudo : List Instr → State → Host.Outcome State Fault Refusal
  | [], s => .next s
  | i :: is, s => andThen (exec i s) fun t => if answeredInvalidCarry t then .next t else runPseudo is t

end Sys2Proof.Machine
end

