-- ==== Sys2Proof/Machine/Reference.lean ====
section
/-!
DEFINITION. The one-shot reference functions (43_nop_and_laws.md R141, R142). They are no commands; the laws compare the commands with them.
-/

namespace Sys2Proof.Machine

open Sys2Proof

/-- The lane after the complete 4-byte blocks of `B`, in order (R141, R152). -/
def mixBlocks32 (K : Config) (B : List Byte) (seed : Word32) : Word32 :=
  (List.range (B.length / Config.block32)).foldl
    (fun h j => mix32 K h (le 32 ((B.drop (Config.block32 * j)).take Config.block32))) seed

/-- The bytes of `B` after its last complete 4-byte block, in the buffer (R141, R152). -/
def tailBytes32 (B : List Byte) : Vector Byte 3 :=
  padded 3 (B.drop (Config.block32 * (B.length / Config.block32)))

/-- `ONESHOT32` (R141). -/
def oneShot32 (K : Config) (B : List Byte) (seed : Word32) : Word32 :=
  final32 K (mixBlocks32 K B seed) ⟨B.length % 4, Nat.mod_lt _ (by decide)⟩ (tailBytes32 B) (BitVec.ofNat 32 B.length)

/-- The lanes after the complete 16-byte blocks of `B`, in order (R142, R152). -/
def mixBlocks128 (K : Config) (B : List Byte) (seed : Word32) : Word64 × Word64 :=
  (List.range (B.length / Config.block128)).foldl
    (fun h j =>
      let block := (B.drop (Config.block128 * j)).take Config.block128
      mix128 K h.1 h.2 (le 64 (block.take 8)) (le 64 (block.drop 8)))
    (seed.setWidth 64, seed.setWidth 64)

/-- The bytes of `B` after its last complete 16-byte block, in the buffer (R142, R152). -/
def tailBytes128 (B : List Byte) : Vector Byte 15 :=
  padded 15 (B.drop (Config.block128 * (B.length / Config.block128)))

/-- `ONESHOT128` (R142). -/
def oneShot128 (K : Config) (B : List Byte) (seed : Word32) : Word64 × Word64 :=
  let h := mixBlocks128 K B seed
  final128 K h.1 h.2 ⟨B.length % 16, Nat.mod_lt _ (by decide)⟩ (tailBytes128 B) (BitVec.ofNat 32 B.length)

end Sys2Proof.Machine
end

