-- ==== Sys2Proof/Safety.lean ====
section
/-!
DEFINITION. What a good state and a safe outcome are: the canonical form of 10_state.md R23, and a step that is neither a fault nor a
refusal (20_memory.md R50: the step is total).
-/

namespace Sys2Proof.Machine

/-- `BUF32[i] = 0` for every `i >= CNT32` (R23). -/
abbrev Bank32.Canonical (b : Bank32) : Prop := ∀ i : Fin 3, b.cnt.val ≤ i.val → b.buf[i] = 0

/-- `BUF128[i] = 0` for every `i >= CNT128` (R23). -/
abbrev Bank128.Canonical (b : Bank128) : Prop := ∀ i : Fin 15, b.cnt.val ≤ i.val → b.buf[i] = 0

/-- Both banks are in canonical form (R23). -/
abbrev State.Canonical (s : State) : Prop := s.bank32.Canonical ∧ s.bank128.Canonical

/-- The step goes on. -/
def Completes (o : Host.Outcome State Fault Refusal) : Prop := ∃ t, o = .next t

end Sys2Proof.Machine
end

