-- ==== Sys2Proof/Certificates/Slice0/Obligations.lean ====
section
/-!
DEFINITION. The statements for the provers, written from the numbered rules of spec/. A response is written out wherever a statement is about
one; "the state with one more response" is `{ s with responses := s.responses ++ [r] }`, so every such equation is a frame too.
-/

namespace Sys2Proof.Claims

open Sys2Proof Sys2Proof.Machine

/-- The outcome of a command. -/
abbrev Answer := Host.Outcome State Fault Refusal

/-- `s` goes on with one more response and nothing else changed. -/
abbrev onlyAnswers (s : State) (status : Status) (rdata : Payload) : Answer :=
  .next { s with responses := s.responses ++ [⟨status, rdata⟩] }

/-- `s` goes on with bank 32 replaced and the response (OK, 0). -/
abbrev setsBank32 (s : State) (b : Bank32) : Answer :=
  .next { s with bank32 := b, responses := s.responses ++ [⟨.ok, 0⟩] }

/-- `s` goes on with bank 128 replaced and the response (OK, 0). -/
abbrev setsBank128 (s : State) (b : Bank128) : Answer :=
  .next { s with bank128 := b, responses := s.responses ++ [⟨.ok, 0⟩] }

/-- Payload byte `i`, bits `[8i+7:8i]`, written out (20_memory.md R41). -/
abbrev payloadByte (w : Payload) (i : Nat) : Byte := w.extractLsb' (8 * i) 8

/-- The first `n` payload bytes in lane order. -/
abbrev payloadBytes (w : Payload) (n : Nat) : List Byte := (List.range n).map (payloadByte w)

/-- The valid bytes of bank 32's carry, oldest first. -/
abbrev valid32 (b : Bank32) : List Byte := b.buf.toList.take b.cnt.val

/-- The valid bytes of bank 128's carry, oldest first. -/
abbrev valid128 (b : Bank128) : List Byte := b.buf.toList.take b.cnt.val

/-- The 37 legal command words as 30_encoding.md R68 lists them. -/
def legalWords : List Word32 :=
  [0x00000000, 0x00000001, 0x00000002, 0x00000102, 0x00000202, 0x00000302, 0x00000402, 0x00000003, 0x00000004, 0x00000005,
   0x00000006, 0x00000007, 0x00000011, 0x00000012, 0x00000112, 0x00000212, 0x00000312, 0x00000412, 0x00000512, 0x00000612,
   0x00000712, 0x00000812, 0x00000912, 0x00000A12, 0x00000B12, 0x00000C12, 0x00000D12, 0x00000E12, 0x00000F12, 0x00001012,
   0x00000013, 0x00000053, 0x00000093, 0x00000014, 0x00000015, 0x00000016, 0x00000017]

/-- The conditions of R69, field by field, over the bits of the word. -/
def reservedOrIllegal (c : Word32) : Prop :=
  let op := c.extractLsb' 0 4
  let var := c.extractLsb' 4 2
  let tr := c.extractLsb' 6 2
  let nb := c.extractLsb' 8 5
  c.extractLsb' 13 19 ≠ 0 ∨ 8 ≤ op.toNat ∨ 2 ≤ var.toNat ∨ (op = 0 ∧ (var ≠ 0 ∨ tr ≠ 0 ∨ nb ≠ 0)) ∨ (op ≠ 2 ∧ nb ≠ 0)
    ∨ (op = 2 ∧ var = 0 ∧ 4 < nb.toNat) ∨ (op = 2 ∧ var = 1 ∧ 16 < nb.toNat)
    ∨ (tr ≠ 0 ∧ ¬(op = 3 ∧ var = 1)) ∨ tr = 3

/-- What one more byte does to bank 32 (the body of R121's loop). -/
def bank32AfterByte (b : Bank32) (x : Byte) : Bank32 :=
  if b.cnt = 3 then
    { h := mix32 mmh3c b.h (le 32 [b.buf[0], b.buf[1], b.buf[2], x]), cnt := 0, buf := Vector.ofFn fun _ => 0 }
  else { b with cnt := b.cnt + 1, buf := Vector.ofFn fun i => if i.val = b.cnt.val then x else b.buf[i] }

/-- What one more byte does to bank 128 (the body of R131's loop). -/
def bank128AfterByte (b : Bank128) (x : Byte) : Bank128 :=
  if b.cnt = 15 then
    let k1 := le 64 [b.buf[0], b.buf[1], b.buf[2], b.buf[3], b.buf[4], b.buf[5], b.buf[6], b.buf[7]]
    let k2 := le 64 [b.buf[8], b.buf[9], b.buf[10], b.buf[11], b.buf[12], b.buf[13], b.buf[14], x]
    let h := mix128 mmh3c b.h1 b.h2 k1 k2
    { h1 := h.1, h2 := h.2, cnt := 0, buf := Vector.ofFn fun _ => 0 }
  else { b with cnt := b.cnt + 1, buf := Vector.ofFn fun i => if i.val = b.cnt.val then x else b.buf[i] }

/-- The carry that R25 recovers from an image with marker `m`. -/
def carry32Of (w : Word32) (m : Fin 4) : Vector Byte 3 :=
  Vector.ofFn fun i => if i.val < m.val then w.extractLsb' (8 * (4 - m.val + i.val)) 8 else 0

/-- The carry that R27 recovers from an image with marker `m`. -/
def carry128Of (w : Payload) (m : Fin 16) : Vector Byte 15 :=
  let c1 := w.extractLsb' 0 64
  let c2 := w.extractLsb' 64 64
  Vector.ofFn fun i =>
    if m.val ≤ 8 then (if i.val < m.val then c1.extractLsb' (8 * (8 - m.val + i.val)) 8 else 0)
    else if i.val < 8 then c1.extractLsb' (8 * i.val) 8
    else if i.val < m.val then c2.extractLsb' (8 * (16 - m.val + (i.val - 8))) 8
    else 0

/-- The bytes a command feeds to bank 32, none but for PUSH32. -/
def fed32 : Instr → List Byte
  | .push32 bytes => bytes
  | _ => []

/-- The bytes a command feeds to bank 128, none but for PUSH128. -/
def fed128 : Instr → List Byte
  | .push128 bytes => bytes
  | _ => []

/-- The command is PUSH32 or does not write bank 32. -/
def onlyPushes32 : Instr → Bool
  | .init32 _ | .wrh32 _ | .wrc32 _ => false
  | .nop | .push32 _ | .result32 _ | .rdh32 | .rdc32 => true
  | .init128 _ | .push128 _ | .result128 _ _ | .rdh128 | .rdc128 | .wrh128 _ _ | .wrc128 _ => true

/-- The command is PUSH128 or does not write bank 128. -/
def onlyPushes128 : Instr → Bool
  | .init128 _ | .wrh128 _ _ | .wrc128 _ => false
  | .nop | .push128 _ | .result128 _ _ | .rdh128 | .rdc128 => true
  | .init32 _ | .push32 _ | .result32 _ | .rdh32 | .rdc32 | .wrh32 _ | .wrc32 _ => true

/-- The command is RESULT32 or a form of RESULT128. -/
def isResult (c : Command) : Prop :=
  (∃ total, decode c = .ok (.result32 total)) ∨ ∃ form total, decode c = .ok (.result128 form total)

/-- R145 (b) for bank 32 and any constants. -/
def closedForm32 : Prop :=
  ∀ (K : Config) (b : Bank32) (p : List Byte), b.Canonical → p.length ≤ 4 →
    let n := b.cnt.val
    let b' := pushBytes32 K b p
    (n + p.length < 4 → b'.h = b.h ∧ b'.cnt.val = n + p.length ∧ b'.buf = padded 3 (valid32 b ++ p)) ∧
    (4 ≤ n + p.length → b'.h = mix32 K b.h (le 32 (valid32 b ++ p.take (4 - n))) ∧ b'.cnt.val = n + p.length - 4 ∧
      b'.buf = padded 3 (p.drop (4 - n)))

/-- R145 (b) for bank 128 and any constants. -/
def closedForm128 : Prop :=
  ∀ (K : Config) (b : Bank128) (p : List Byte), b.Canonical → p.length ≤ 16 →
    let n := b.cnt.val
    let b' := pushBytes128 K b p
    let blk := valid128 b ++ p.take (16 - n)
    (n + p.length < 16 →
      (b'.h1, b'.h2) = (b.h1, b.h2) ∧ b'.cnt.val = n + p.length ∧ b'.buf = padded 15 (valid128 b ++ p)) ∧
    (16 ≤ n + p.length →
      (b'.h1, b'.h2) = mix128 K b.h1 b.h2 (le 64 (blk.take 8)) (le 64 (blk.drop 8)) ∧ b'.cnt.val = n + p.length - 16 ∧
      b'.buf = padded 15 (p.drop (16 - n)))

end Sys2Proof.Claims

open Sys2Proof Sys2Proof.Machine Sys2Proof.Claims

/-! ### Encoding -/

/-- Decoding the encoding of any well-formed command gives it back, with every operand (30_encoding.md R60 to R68, R72). -/
def Obligations.DecodeEncodeRoundTrip : Prop :=
  ∀ i : Instr, i.wellFormed = true → decode (encode i) = .ok i

/-- A word that decodes gives a well-formed command whose encoding is that very word (30_encoding.md R61: one encoding each). -/
def Obligations.DecodedCommandHasOneWord : Prop :=
  ∀ (c : Command) (i : Instr), decode c = .ok i → i.wellFormed = true ∧ (encode i).cmd = c.cmd

/-- The table of R68: a command is named exactly when the word under the row's mask is the row's match and the free field is
legal. -/
def Obligations.MnemonicsFollowOpcodeTable : Prop :=
  ∀ c : Command,
    (decode c = .ok .nop ↔ c.cmd &&& 0xFFFFFFFF = 0x00000000) ∧
    ((∃ v, decode c = .ok (.init32 v)) ↔ c.cmd &&& 0xFFFFFFFF = 0x00000001) ∧
    (∀ n, (∃ bs, decode c = .ok (.push32 bs) ∧ bs.length = n) ↔
      c.cmd &&& 0xFFFFE0FF = 0x00000002 ∧ (c.cmd.extractLsb' 8 5).toNat = n ∧ n ≤ 4) ∧
    ((∃ v, decode c = .ok (.result32 v)) ↔ c.cmd &&& 0xFFFFFFFF = 0x00000003) ∧
    (decode c = .ok .rdh32 ↔ c.cmd &&& 0xFFFFFFFF = 0x00000004) ∧
    (decode c = .ok .rdc32 ↔ c.cmd &&& 0xFFFFFFFF = 0x00000005) ∧
    ((∃ v, decode c = .ok (.wrh32 v)) ↔ c.cmd &&& 0xFFFFFFFF = 0x00000006) ∧
    ((∃ v, decode c = .ok (.wrc32 v)) ↔ c.cmd &&& 0xFFFFFFFF = 0x00000007) ∧
    ((∃ v, decode c = .ok (.init128 v)) ↔ c.cmd &&& 0xFFFFFFFF = 0x00000011) ∧
    (∀ n, (∃ bs, decode c = .ok (.push128 bs) ∧ bs.length = n) ↔
      c.cmd &&& 0xFFFFE0FF = 0x00000012 ∧ (c.cmd.extractLsb' 8 5).toNat = n ∧ n ≤ 16) ∧
    (∀ f, (∃ v, decode c = .ok (.result128 f v)) ↔
      c.cmd &&& 0xFFFFFF3F = 0x00000013 ∧
        (c.cmd.extractLsb' 6 2).toNat = (match f with | .full => 0 | .first8 => 1 | .first4 => 2)) ∧
    (decode c = .ok .rdh128 ↔ c.cmd &&& 0xFFFFFFFF = 0x00000014) ∧
    (decode c = .ok .rdc128 ↔ c.cmd &&& 0xFFFFFFFF = 0x00000015) ∧
    ((∃ v v', decode c = .ok (.wrh128 v v')) ↔ c.cmd &&& 0xFFFFFFFF = 0x00000016) ∧
    ((∃ v, decode c = .ok (.wrc128 v)) ↔ c.cmd &&& 0xFFFFFFFF = 0x00000017)

/-- Exactly 37 words are legal, whatever the payload (R68). -/
def Obligations.LegalWordsAreThirtySeven : Prop :=
  legalWords.length = 37 ∧ legalWords.Nodup ∧ ∀ c : Command, (∃ i, decode c = .ok i) ↔ c.cmd ∈ legalWords

/-- Where each operand comes from; the other payload bits are ignored (R66). -/
def Obligations.OperandsComeFromTheirPayloadBits : Prop :=
  (∀ w, decode ⟨0x00000000, w⟩ = .ok .nop) ∧
  (∀ w, decode ⟨0x00000001, w⟩ = .ok (.init32 (w.extractLsb' 0 32))) ∧
  (∀ w, decode ⟨0x00000011, w⟩ = .ok (.init128 (w.extractLsb' 0 32))) ∧
  (∀ n w, n ≤ 4 → decode ⟨BitVec.ofNat 32 (0x00000002 + 0x100 * n), w⟩ = .ok (.push32 (payloadBytes w n))) ∧
  (∀ n w, n ≤ 16 → decode ⟨BitVec.ofNat 32 (0x00000012 + 0x100 * n), w⟩ = .ok (.push128 (payloadBytes w n))) ∧
  (∀ w, decode ⟨0x00000003, w⟩ = .ok (.result32 (w.extractLsb' 0 32))) ∧
  (∀ w, decode ⟨0x00000013, w⟩ = .ok (.result128 .full (w.extractLsb' 0 32))) ∧
  (∀ w, decode ⟨0x00000053, w⟩ = .ok (.result128 .first8 (w.extractLsb' 0 32))) ∧
  (∀ w, decode ⟨0x00000093, w⟩ = .ok (.result128 .first4 (w.extractLsb' 0 32))) ∧
  (∀ w, decode ⟨0x00000004, w⟩ = .ok .rdh32) ∧ (∀ w, decode ⟨0x00000005, w⟩ = .ok .rdc32) ∧
  (∀ w, decode ⟨0x00000014, w⟩ = .ok .rdh128) ∧ (∀ w, decode ⟨0x00000015, w⟩ = .ok .rdc128) ∧
  (∀ w, decode ⟨0x00000006, w⟩ = .ok (.wrh32 (w.extractLsb' 0 32))) ∧
  (∀ w, decode ⟨0x00000007, w⟩ = .ok (.wrc32 (w.extractLsb' 0 32))) ∧
  (∀ w, decode ⟨0x00000016, w⟩ = .ok (.wrh128 (w.extractLsb' 0 64) (w.extractLsb' 64 64))) ∧
  (∀ w, decode ⟨0x00000017, w⟩ = .ok (.wrc128 w)) ∧
  (∀ (seed : Word32) (s : State), ∃ t, exec (.init128 seed) s = .next t ∧
    t.bank128.h1 = BitVec.ofNat 64 seed.toNat ∧ t.bank128.h2 = BitVec.ofNat 64 seed.toNat)

/-- A few words written out from the tables of 30_encoding.md decode to the command they stand for (sanity). -/
def Obligations.SampleWordsDecode : Prop :=
  decode ⟨0b00000000000000000000000000000000, 0⟩ = .ok .nop ∧
  decode ⟨0b00000000000000000000001000000010, 0xCCBB⟩ = .ok (.push32 [0xBB, 0xCC]) ∧
  decode ⟨0b00000000000000000000000001010011, 0x11⟩ = .ok (.result128 .first8 0x11) ∧
  decode ⟨0b00000000000000000000000000010110, 0x00000000000000020000000000000001⟩ = .ok (.wrh128 1 2) ∧
  decode ⟨0b00000000000000000000000011010011, 0⟩ = .illegal .reservedTr

/-- A word is answered `ILLEGAL_COMMAND` exactly when a condition of R69 holds of its bits, and then nothing else changes, whatever
the payload and the state (R69, R161). -/
def Obligations.IllegalWordsAreAnsweredAndChangeNothing : Prop :=
  ∀ (c : Command) (s : State),
    (reservedOrIllegal c.cmd → runCommand c s = onlyAnswers s .illegalCommand 0) ∧
    (¬ reservedOrIllegal c.cmd → ∀ t r, runCommand c s = .next t → t.responses = s.responses ++ [r] →
      r.status ≠ .illegalCommand) ∧
    (reservedOrIllegal c.cmd → s.presented = some (.command c) →
      step s = onlyAnswers { s with presented := none } .illegalCommand 0)

/-! ### The step, reset and runs -/

/-- When the command the host presents decodes to a well-formed command, the step is that command's meaning, with the transaction
taken off the port (20_memory.md R50). -/
def Obligations.StepRunsDecodedCommand : Prop :=
  ∀ (s : State) (c : Command) (i : Instr),
    s.presented = some (.command c) → decode c = .ok i → i.wellFormed = true → step s = exec i { s with presented := none }

/-- The reset event zeroes every register and leaves nothing at the ports, from any state (70_reset_and_hazards.md R180, R181). -/
def Obligations.ResetEventZeroesEveryRegister : Prop :=
  ∀ s : State, s.presented = some .reset →
    step s = .next
      { bank32 := { h := 0, cnt := 0, buf := Vector.ofFn fun _ => 0 },
        bank128 := { h1 := 0, h2 := 0, cnt := 0, buf := Vector.ofFn fun _ => 0 }, presented := none, responses := [] }

/-- Every register is 0 after reset, and that is what INIT32 0 and INIT128 0 leave (10_state.md R34). -/
def Obligations.ResetLeavesTheEmptyState : Prop :=
  State.reset.bank32.h = 0 ∧ State.reset.bank32.cnt = 0 ∧ (∀ i : Fin 3, State.reset.bank32.buf[i] = 0) ∧
  State.reset.bank128.h1 = 0 ∧ State.reset.bank128.h2 = 0 ∧ State.reset.bank128.cnt = 0 ∧
  (∀ i : Fin 15, State.reset.bank128.buf[i] = 0) ∧
  ∀ s : State, execList [.init32 0, .init128 0] s =
    .next { s with bank32 := State.reset.bank32, bank128 := State.reset.bank128,
                   responses := s.responses ++ [⟨.ok, 0⟩, ⟨.ok, 0⟩] }

/-- The reset state is in canonical form (R23, R34). -/
def Obligations.ResetStateIsCanonical : Prop := State.reset.Canonical

/-- THE INVARIANT of R23: from ANY state in canonical form, whatever is presented, a step leaves a state in canonical form. -/
def Obligations.EveryStepKeepsCanonicalForm : Prop :=
  ∀ s t : State, s.Canonical → step s = .next t → t.Canonical

/-- The registers a command leaves and its one response are a function of the registers before it and of the command alone; nothing
else changes, and nothing at the ports is read (20_memory.md R50, R55; 43_nop_and_laws.md R150; 10_state.md R28, R29). -/
def Obligations.EveryCommandGetsOneResponse : Prop :=
  ∃ rule : Command → Block → Block × Response, ∀ (c : Command) (s : State),
    runCommand c s = .next
      { toBlock := (rule c s.toBlock).1, toPorts := { s.toPorts with responses := s.responses ++ [(rule c s.toBlock).2] } }

/-- The step is total: it never faults and never refuses (R50, 70_reset_and_hazards.md R190), and leaves nothing presented. With
nothing presented it leaves the state as it is, and that this is a step at all is the model's choice (log entry 3; 60_exceptions.md
R173). -/
def Obligations.EveryStepCompletes : Prop :=
  ∀ s : State, Completes (step s) ∧ (∀ t, step s = .next t → t.presented = none) ∧ (s.presented = none → step s = .next s)

/-- The commands that a host presents one after another run as the left fold over its list (R50; 10_state.md R29); a reset among its
actions ends one list and starts another (70_reset_and_hazards.md R180); and with no new action nothing more runs, however many steps
follow, for the machine holds no list (10_state.md R28 (h); log entry 3). -/
def Obligations.RunIsTheFoldOverTheCommands : Prop :=
  (∀ (cs : List Command) (s : State), s.presented = none → driven (cs.map .command) s = runList cs s) ∧
  (∀ (before later : List HostAction) (s : State), driven (before ++ .reset :: later) s = driven later State.reset) ∧
  (∀ (a : HostAction) (k : Nat) (s : State), Host.Core.run Sys2Proof.core (k + 1) (present a s) = step (present a s))

/-! ### The commands of 41_bank32_commands.md and 42_bank128_commands.md, and NOP -/

/-- R140. -/
def Obligations.NopOnlyAnswers : Prop :=
  ∀ (w : Payload) (s : State), runCommand ⟨0x00000000, w⟩ s = onlyAnswers s .ok 0 ∧ exec .nop s = onlyAnswers s .ok 0

/-- R120, from the command word and from the decoded command. -/
def Obligations.Init32StartsAStream : Prop :=
  (∀ (w : Payload) (s : State), runCommand ⟨0x00000001, w⟩ s =
    setsBank32 s { h := w.extractLsb' 0 32, cnt := 0, buf := Vector.ofFn fun _ => 0 }) ∧
  (∀ (seed : Word32) (s : State), exec (.init32 seed) s =
    setsBank32 s { h := seed, cnt := 0, buf := Vector.ofFn fun _ => 0 })

/-- R121: the encoding and operand bytes, the byte loop (no byte; one more byte), the new count, and when a block is mixed. -/
def Obligations.Push32FollowsTheByteLoop : Prop :=
  (∀ (n : Nat) (w : Payload) (s : State), n ≤ 4 →
    runCommand ⟨BitVec.ofNat 32 (0x00000002 + 0x100 * n), w⟩ s = exec (.push32 (payloadBytes w n)) s) ∧
  (∀ s : State, exec (.push32 []) s = onlyAnswers s .ok 0) ∧
  (∀ (x : Byte) (xs : List Byte) (s : State),
    exec (.push32 (x :: xs)) s = exec (.push32 xs) { s with bank32 := bank32AfterByte s.bank32 x }) ∧
  (∀ (xs : List Byte) (s : State), xs.length ≤ 4 → ∃ b : Bank32,
    exec (.push32 xs) s = setsBank32 s b ∧ b.cnt.val = (s.bank32.cnt.val + xs.length) % 4 ∧
    b.h = if 4 ≤ s.bank32.cnt.val + xs.length then mix32 mmh3c s.bank32.h (le 32 ((valid32 s.bank32 ++ xs).take 4))
          else s.bank32.h)

/-- R122: the digest when the length fits, `INVALID_LENGTH` otherwise; no register is written either way. -/
def Obligations.Result32AnswersDigestOrInvalidLength : Prop :=
  ∀ (total : Word32) (s : State),
    (∀ w : Payload, w.extractLsb' 0 32 = total → runCommand ⟨0x00000003, w⟩ s = exec (.result32 total) s) ∧
    (total.toNat % 4 = s.bank32.cnt.val →
      exec (.result32 total) s =
        onlyAnswers s .ok (BitVec.ofNat 128 (final32 mmh3c s.bank32.h s.bank32.cnt s.bank32.buf total).toNat)) ∧
    (total.toNat % 4 ≠ s.bank32.cnt.val → exec (.result32 total) s = onlyAnswers s .invalidLength 0)

/-- R123. -/
def Obligations.Rdh32ReadsTheLane : Prop :=
  ∀ (w : Payload) (s : State),
    runCommand ⟨0x00000004, w⟩ s = onlyAnswers s .ok (BitVec.ofNat 128 s.bank32.h.toNat) ∧
    exec .rdh32 s = onlyAnswers s .ok (BitVec.ofNat 128 s.bank32.h.toNat)

/-- R124. -/
def Obligations.Rdc32ReadsThePackedCarry : Prop :=
  ∀ (w : Payload) (s : State),
    runCommand ⟨0x00000005, w⟩ s = onlyAnswers s .ok (BitVec.ofNat 128 (pack32 s.bank32.cnt s.bank32.buf).toNat) ∧
    exec .rdc32 s = onlyAnswers s .ok (BitVec.ofNat 128 (pack32 s.bank32.cnt s.bank32.buf).toNat)

/-- R125. -/
def Obligations.Wrh32LoadsTheLane : Prop :=
  (∀ (w : Payload) (s : State), runCommand ⟨0x00000006, w⟩ s = setsBank32 s { s.bank32 with h := w.extractLsb' 0 32 }) ∧
  (∀ (h : Word32) (s : State), exec (.wrh32 h) s = setsBank32 s { s.bank32 with h := h })

/-- R126: the carry of R25 when the marker is below 4, `INVALID_CARRY` otherwise. -/
def Obligations.Wrc32LoadsTheCarryOrRefusesTheMarker : Prop :=
  ∀ (w : Word32) (s : State),
    (∀ v : Payload, v.extractLsb' 0 32 = w → runCommand ⟨0x00000007, v⟩ s = exec (.wrc32 w) s) ∧
    (∀ m : Fin 4, (w.extractLsb' 0 8).toNat = m.val →
      exec (.wrc32 w) s = setsBank32 s { s.bank32 with cnt := m, buf := carry32Of w m }) ∧
    (4 ≤ (w.extractLsb' 0 8).toNat → exec (.wrc32 w) s = onlyAnswers s .invalidCarry 0)

/-- R130. -/
def Obligations.Init128StartsAStream : Prop :=
  (∀ (w : Payload) (s : State), runCommand ⟨0x00000011, w⟩ s = exec (.init128 (w.extractLsb' 0 32)) s) ∧
  (∀ (seed : Word32) (s : State), exec (.init128 seed) s =
    setsBank128 s
      { h1 := BitVec.ofNat 64 seed.toNat, h2 := BitVec.ofNat 64 seed.toNat, cnt := 0, buf := Vector.ofFn fun _ => 0 })

/-- R131: as `Push32FollowsTheByteLoop`, with a 16-byte block over two lanes. -/
def Obligations.Push128FollowsTheByteLoop : Prop :=
  (∀ (n : Nat) (w : Payload) (s : State), n ≤ 16 →
    runCommand ⟨BitVec.ofNat 32 (0x00000012 + 0x100 * n), w⟩ s = exec (.push128 (payloadBytes w n)) s) ∧
  (∀ s : State, exec (.push128 []) s = onlyAnswers s .ok 0) ∧
  (∀ (x : Byte) (xs : List Byte) (s : State),
    exec (.push128 (x :: xs)) s = exec (.push128 xs) { s with bank128 := bank128AfterByte s.bank128 x }) ∧
  (∀ (xs : List Byte) (s : State), xs.length ≤ 16 → ∃ b : Bank128,
    exec (.push128 xs) s = setsBank128 s b ∧ b.cnt.val = (s.bank128.cnt.val + xs.length) % 16 ∧
    (b.h1, b.h2) =
      if 16 ≤ s.bank128.cnt.val + xs.length then
        mix128 mmh3c s.bank128.h1 s.bank128.h2 (le 64 ((valid128 s.bank128 ++ xs).take 8))
          (le 64 (((valid128 s.bank128 ++ xs).drop 8).take 8))
      else (s.bank128.h1, s.bank128.h2))

/-- R132, for the three digest forms. -/
def Obligations.Result128AnswersDigestOrInvalidLength : Prop :=
  ∀ (total : Word32) (s : State),
    (∀ w : Payload, w.extractLsb' 0 32 = total →
      runCommand ⟨0x00000013, w⟩ s = exec (.result128 .full total) s ∧
      runCommand ⟨0x00000053, w⟩ s = exec (.result128 .first8 total) s ∧
      runCommand ⟨0x00000093, w⟩ s = exec (.result128 .first4 total) s) ∧
    (total.toNat % 16 = s.bank128.cnt.val →
      ∃ d1 d2, (d1, d2) = final128 mmh3c s.bank128.h1 s.bank128.h2 s.bank128.cnt s.bank128.buf total ∧
        exec (.result128 .full total) s = onlyAnswers s .ok (d2 ++ d1) ∧
        exec (.result128 .first8 total) s = onlyAnswers s .ok (BitVec.ofNat 128 d1.toNat) ∧
        exec (.result128 .first4 total) s = onlyAnswers s .ok (BitVec.ofNat 128 (d1.toNat % 2 ^ 32))) ∧
    (total.toNat % 16 ≠ s.bank128.cnt.val → ∀ form, exec (.result128 form total) s = onlyAnswers s .invalidLength 0)

/-- R133. -/
def Obligations.Rdh128ReadsBothLanes : Prop :=
  ∀ (w : Payload) (s : State),
    runCommand ⟨0x00000014, w⟩ s = onlyAnswers s .ok (s.bank128.h2 ++ s.bank128.h1) ∧
    exec .rdh128 s = onlyAnswers s .ok (s.bank128.h2 ++ s.bank128.h1)

/-- R134. -/
def Obligations.Rdc128ReadsThePackedCarry : Prop :=
  ∀ (w : Payload) (s : State),
    runCommand ⟨0x00000015, w⟩ s = onlyAnswers s .ok (pack128 s.bank128.cnt s.bank128.buf) ∧
    exec .rdc128 s = onlyAnswers s .ok (pack128 s.bank128.cnt s.bank128.buf)

/-- R135. -/
def Obligations.Wrh128LoadsBothLanes : Prop :=
  (∀ (w : Payload) (s : State), runCommand ⟨0x00000016, w⟩ s =
    setsBank128 s { s.bank128 with h1 := w.extractLsb' 0 64, h2 := w.extractLsb' 64 64 }) ∧
  (∀ (h1 h2 : Word64) (s : State), exec (.wrh128 h1 h2) s = setsBank128 s { s.bank128 with h1 := h1, h2 := h2 })

/-- R136: the carry of R27 when the marker is below 16, `INVALID_CARRY` otherwise. -/
def Obligations.Wrc128LoadsTheCarryOrRefusesTheMarker : Prop :=
  ∀ (w : Payload) (s : State),
    runCommand ⟨0x00000017, w⟩ s = exec (.wrc128 w) s ∧
    (∀ m : Fin 16, (w.extractLsb' 64 8).toNat = m.val →
      exec (.wrc128 w) s = setsBank128 s { s.bank128 with cnt := m, buf := carry128Of w m }) ∧
    (16 ≤ (w.extractLsb' 64 8).toNat → exec (.wrc128 w) s = onlyAnswers s .invalidCarry 0)

/-! ### Errors -/

/-- `STATUS` codes: bit 1 is set exactly for the two conditions of the source (30_encoding.md R67). -/
def Obligations.StatusCodesMarkTheSourcesErrors : Prop :=
  Status.code .ok = 0 ∧ Status.code .illegalCommand = 1 ∧ Status.code .invalidCarry = 2 ∧ Status.code .invalidLength = 3 ∧
  ∀ st : Status, (st.code).getLsbD 1 = true ↔ (st = .invalidCarry ∨ st = .invalidLength)

/-- R164: an error answer carries no data, and no register changes. -/
def Obligations.ErrorsWriteNothing : Prop :=
  ∀ (c : Command) (s t : State) (r : Response), runCommand c s = .next t → t.responses = s.responses ++ [r] →
    r.status ≠ .ok → r.rdata = 0 ∧ t = { s with responses := s.responses ++ [⟨r.status, 0⟩] }

/-- R162: `INVALID_CARRY` exactly for a WRC whose marker byte is out of range. -/
def Obligations.InvalidCarryIsRaisedExactlyByBadMarkers : Prop :=
  ∀ (c : Command) (s t : State) (r : Response), runCommand c s = .next t → t.responses = s.responses ++ [r] →
    (r.status = .invalidCarry ↔
      (c.cmd = 0x00000007 ∧ 4 ≤ (c.wdata.extractLsb' 0 8).toNat) ∨ (c.cmd = 0x00000017 ∧ 16 ≤ (c.wdata.extractLsb' 64 8).toNat))

/-- R163: `INVALID_LENGTH` exactly for a RESULT whose low length bits are not the count. -/
def Obligations.InvalidLengthIsRaisedExactlyByWrongLowBits : Prop :=
  ∀ (c : Command) (s t : State) (r : Response), runCommand c s = .next t → t.responses = s.responses ++ [r] →
    (r.status = .invalidLength ↔
      (c.cmd = 0x00000003 ∧ (c.wdata.extractLsb' 0 2).toNat ≠ s.bank32.cnt.val) ∨
      (c.cmd ∈ [0x00000013, 0x00000053, 0x00000093] ∧ (c.wdata.extractLsb' 0 4).toNat ≠ s.bank128.cnt.val))

/-- R165: after an error the next command runs as if the failed one had never been sent, and the same command fails again. -/
def Obligations.ErrorsLeaveNoTrace : Prop :=
  ∀ (c : Command) (s t : State) (r : Response), runCommand c s = .next t → t.responses = s.responses ++ [r] → r.status ≠ .ok →
    (∀ d : Command, ∃ u q, runCommand d s = .next u ∧ u.responses = s.responses ++ [q] ∧
      runCommand d t = .next { u with responses := t.responses ++ [q] }) ∧
    runCommand c t = .next { t with responses := t.responses ++ [r] }

/-! ### Properties of the whole block -/

/-- R32: a command of one bank neither reads nor writes the other, and any other command touches neither. -/
def Obligations.BanksAreIndependent : Prop :=
  ∀ (c : Command) (s t : State), runCommand c s = .next t →
    (isBank32 c = false → t.bank32 = s.bank32) ∧ (isBank128 c = false → t.bank128 = s.bank128) ∧
    (isBank32 c = true → isBank128 c = false) ∧
    (isBank32 c = true → ∀ s' : State, s'.bank32 = s.bank32 → ∃ t' r, runCommand c s' = .next t' ∧
      t'.bank32 = t.bank32 ∧ t'.responses = s'.responses ++ [r] ∧ t.responses = s.responses ++ [r]) ∧
    (isBank128 c = true → ∀ s' : State, s'.bank128 = s.bank128 → ∃ t' r, runCommand c s' = .next t' ∧
      t'.bank128 = t.bank128 ∧ t'.responses = s'.responses ++ [r] ∧ t.responses = s.responses ++ [r])

/-- R151: deleting every command that is not of a bank (the other bank's, NOPs, illegal words) changes neither what that bank's
commands answer nor that bank's final state. -/
def Obligations.DeletingOtherCommandsChangesNothing : Prop :=
  ∀ (cs : List Command) (s : State),
    ((answers cs s).filter (fun a => isBank32 a.1) = answers (cs.filter isBank32) s ∧
      ∃ t u, runList cs s = .next t ∧ runList (cs.filter isBank32) s = .next u ∧ t.bank32 = u.bank32) ∧
    ((answers cs s).filter (fun a => isBank128 a.1) = answers (cs.filter isBank128) s ∧
      ∃ t u, runList cs s = .next t ∧ runList (cs.filter isBank128) s = .next u ∧ t.bank128 = u.bank128)

/-- R48: reads write no register and repeat their answer; INIT, WRH and WRC done twice leave the registers of once. -/
def Obligations.ReadsArePureAndLoadsAreIdempotent : Prop :=
  (∀ i : Instr, (i ∈ [Instr.nop, .rdh32, .rdc32, .rdh128, .rdc128] ∨ (∃ n, i = .result32 n) ∨ ∃ f n, i = .result128 f n) →
    ∀ s : State, ∃ r, exec i s = .next { s with responses := s.responses ++ [r] } ∧
      execList [i, i] s = .next { s with responses := s.responses ++ [r, r] }) ∧
  (∀ i : Instr, ((∃ v, i = .init32 v ∨ i = .wrh32 v ∨ i = .wrc32 v ∨ i = .init128 v) ∨ (∃ v v', i = .wrh128 v v') ∨
      ∃ w, i = .wrc128 w) →
    ∀ s : State, ∃ t r, exec i s = .next t ∧ t.responses = s.responses ++ [r] ∧
      exec i t = .next { t with responses := t.responses ++ [r] })

/-- R146: a RESULT writes no register, whatever it answers, and taking one out of a command list changes no other answer. -/
def Obligations.ResultIsPure : Prop :=
  ∀ c : Command, isResult c →
    (∀ s : State, ∃ r, runCommand c s = .next { s with responses := s.responses ++ [r] } ∧
      runList [c, c] s = .next { s with responses := s.responses ++ [r, r] }) ∧
    ∀ (before after : List Command) (s : State), ∃ a r b, a.length = before.length ∧
      answers (before ++ c :: after) s = a ++ (c, r) :: b ∧ answers (before ++ after) s = a ++ b

/-- R147: the images RDH and RDC answer, written back at any later time in either order, restore the bank. -/
def Obligations.SaveAndRestoreKeepsTheBank : Prop :=
  ∀ s t : State, s.Canonical →
    (∃ h w : Payload, exec .rdh32 s = onlyAnswers s .ok h ∧ exec .rdc32 s = onlyAnswers s .ok w ∧
      let back : Answer := .next { t with bank32 := s.bank32, responses := t.responses ++ [⟨.ok, 0⟩, ⟨.ok, 0⟩] }
      execList [.wrh32 (h.extractLsb' 0 32), .wrc32 (w.extractLsb' 0 32)] t = back ∧
      execList [.wrc32 (w.extractLsb' 0 32), .wrh32 (h.extractLsb' 0 32)] t = back) ∧
    (∃ h w : Payload, exec .rdh128 s = onlyAnswers s .ok h ∧ exec .rdc128 s = onlyAnswers s .ok w ∧
      let back : Answer := .next { t with bank128 := s.bank128, responses := t.responses ++ [⟨.ok, 0⟩, ⟨.ok, 0⟩] }
      execList [.wrh128 (h.extractLsb' 0 64) (h.extractLsb' 64 64), .wrc128 w] t = back ∧
      execList [.wrc128 w, .wrh128 (h.extractLsb' 0 64) (h.extractLsb' 64 64)] t = back)

/-- R148: INIT leaves the state of WRH of the seed, then WRC of 0; only the number of responses differs. -/
def Obligations.InitIsWrhThenWrc : Prop :=
  ∀ (seed : Word32) (s : State),
    (∃ t, exec (.init32 seed) s = .next t ∧ execList [.wrh32 seed, .wrc32 0] s =
      .next { t with responses := t.responses ++ [⟨.ok, 0⟩] }) ∧
    (∃ t, exec (.init128 seed) s = .next t ∧
      execList [.wrh128 (BitVec.ofNat 64 seed.toNat) (BitVec.ofNat 64 seed.toNat), .wrc128 0] s =
        .next { t with responses := t.responses ++ [⟨.ok, 0⟩] })

/-- R149: the digest of the empty input, for every seed and both banks. -/
def Obligations.EmptyInputDigests : Prop :=
  ∀ (seed : Word32) (s : State),
    (∃ t, execList [.init32 seed, .result32 0] s = .next t ∧
      t.responses = s.responses ++ [⟨.ok, 0⟩, ⟨.ok, BitVec.ofNat 128 (fmix32 mmh3c seed).toNat⟩]) ∧
    (∃ t, execList [.init128 seed, .result128 .full 0] s = .next t ∧
      let z := BitVec.ofNat 64 seed.toNat
      let w1 := fmix64 mmh3c (2 * z)
      let w2 := fmix64 mmh3c (3 * z)
      t.responses = s.responses ++ [⟨.ok, 0⟩, ⟨.ok, (w2 + (w1 + w2)) ++ (w1 + w2)⟩])

/-- R145: (a) beats may be joined or split, (b) the closed form of one beat, (c) a full beat on an empty carry is the block. -/
def Obligations.PushSplitsAndHasAClosedForm : Prop :=
  (∀ (p q : List Byte) (s : State), ∃ t u, exec (.push32 (p ++ q)) s = .next t ∧
    execList [.push32 p, .push32 q] s = .next u ∧ u = { t with responses := t.responses ++ [⟨.ok, 0⟩] }) ∧
  (∀ (p q : List Byte) (s : State), ∃ t u, exec (.push128 (p ++ q)) s = .next t ∧
    execList [.push128 p, .push128 q] s = .next u ∧ u = { t with responses := t.responses ++ [⟨.ok, 0⟩] }) ∧
  closedForm32 ∧ closedForm128 ∧
  (∀ (w : Payload) (s : State), s.bank32.cnt = 0 → runCommand ⟨0x00000402, w⟩ s =
    setsBank32 s { h := mix32 mmh3c s.bank32.h (w.extractLsb' 0 32), cnt := 0, buf := Vector.ofFn fun _ => 0 }) ∧
  (∀ (w : Payload) (s : State), s.bank128.cnt = 0 → ∃ l1 l2,
    (l1, l2) = mix128 mmh3c s.bank128.h1 s.bank128.h2 (w.extractLsb' 0 64) (w.extractLsb' 64 64) ∧
    runCommand ⟨0x00001012, w⟩ s = setsBank128 s { h1 := l1, h2 := l2, cnt := 0, buf := Vector.ofFn fun _ => 0 })

/-- R152, bank 32: after INIT32 and PUSH32 commands that feed `S`, with any commands between that do not write the bank. -/
def Obligations.Bank32AfterAStream : Prop :=
  ∀ (seed : Word32) (script : List Instr) (s : State), (∀ i ∈ script, onlyPushes32 i = true) →
    let S := (script.map fed32).flatten
    let q := S.length / 4
    ∃ t, execList (.init32 seed :: script) s = .next t ∧
      t.bank32.h = (List.range q).foldl (fun h j => mix32 mmh3c h (le 32 ((S.drop (4 * j)).take 4))) seed ∧
      t.bank32.cnt.val = S.length % 4 ∧
      ∀ i : Fin 3, t.bank32.buf[i] = if i.val < S.length % 4 then S.getD (4 * q + i.val) 0 else 0

/-- R152, bank 128. -/
def Obligations.Bank128AfterAStream : Prop :=
  ∀ (seed : Word32) (script : List Instr) (s : State), (∀ i ∈ script, onlyPushes128 i = true) →
    let S := (script.map fed128).flatten
    let q := S.length / 16
    ∃ t, execList (.init128 seed :: script) s = .next t ∧
      (t.bank128.h1, t.bank128.h2) =
        (List.range q).foldl
          (fun h j => mix128 mmh3c h.1 h.2 (le 64 ((S.drop (16 * j)).take 8)) (le 64 ((S.drop (16 * j + 8)).take 8)))
          (BitVec.ofNat 64 seed.toNat, BitVec.ofNat 64 seed.toNat) ∧
      t.bank128.cnt.val = S.length % 16 ∧
      ∀ i : Fin 15, t.bank128.buf[i] = if i.val < S.length % 16 then S.getD (16 * q + i.val) 0 else 0

/-- R143 without the inserted SAVE and RESTORE pairs: however a byte string is cut into chunks, INIT32, PROCESS32 of each chunk and
RESULT32 of its length end with the one-shot digest. -/
def Obligations.ChunkingInvariance32 : Prop :=
  ∀ (seed : Word32) (chunks : List (List Byte)) (s : State), chunks.flatten.length < 2 ^ 32 →
    ∃ t, execList (.init32 seed :: chunks.flatMap process32 ++ [.result32 (BitVec.ofNat 32 chunks.flatten.length)]) s = .next t ∧
      t.responses.getLast? = some ⟨.ok, BitVec.ofNat 128 (oneShot32 mmh3c chunks.flatten seed).toNat⟩

/-- R144 without the inserted SAVE and RESTORE pairs, for the three digest forms. -/
def Obligations.ChunkingInvariance128 : Prop :=
  ∀ (form : DigestForm) (seed : Word32) (chunks : List (List Byte)) (s : State), chunks.flatten.length < 2 ^ 32 →
    ∃ t, execList
        (.init128 seed :: chunks.flatMap process128 ++ [.result128 form (BitVec.ofNat 32 chunks.flatten.length)]) s = .next t ∧
      let d := oneShot128 mmh3c chunks.flatten seed
      t.responses.getLast? = some ⟨.ok, match form with
        | .full => d.2 ++ d.1
        | .first8 => BitVec.ofNat 128 d.1.toNat
        | .first4 => BitVec.ofNat 128 (d.1.toNat % 2 ^ 32)⟩

/-- R73, PROCESS: every beat is a legal PUSH, beat `j` with the bytes `B[W*j .. min(W*j+W, n)-1]`; there are `ceil(n / W)` of them, all
but the last full, and together they carry the byte string in order; no byte is one PUSH with no bytes. -/
def Obligations.ProcessBeatsCarryTheString : Prop :=
  (process32 [] = [.push32 []] ∧ process128 [] = [.push128 []]) ∧
  ∀ B : List Byte,
    ((∀ i ∈ process32 B, ∃ bs, i = .push32 bs ∧ bs.length ≤ 4 ∧ i.wellFormed = true) ∧
      ((process32 B).map fed32).flatten = B ∧ (process32 B).length = max 1 ((B.length + 3) / 4) ∧
      (∀ j, j < (process32 B).length → (process32 B)[j]? = some (.push32 ((B.drop (4 * j)).take 4))) ∧
      ∀ j, j + 1 < (process32 B).length → 4 * j + 4 ≤ B.length) ∧
    ((∀ i ∈ process128 B, ∃ bs, i = .push128 bs ∧ bs.length ≤ 16 ∧ i.wellFormed = true) ∧
      ((process128 B).map fed128).flatten = B ∧ (process128 B).length = max 1 ((B.length + 15) / 16) ∧
      (∀ j, j < (process128 B).length → (process128 B)[j]? = some (.push128 ((B.drop (16 * j)).take 16))) ∧
      ∀ j, j + 1 < (process128 B).length → 16 * j + 16 ≤ B.length)

/-- R73: each pseudo-command that begins with a RESTORE stops after it, and reports it, when the marker is out of range, and otherwise
runs its whole expansion; a pseudo-command without a RESTORE always runs its whole expansion. The expansions are written out. -/
def Obligations.PseudoCommandStopsAtABadCarry : Prop :=
  (∀ (h carry total : Word32) (B : List Byte) (s : State),
    (4 ≤ (carry.extractLsb' 0 8).toNat →
      let stopped : Answer :=
        .next { s with bank32 := { s.bank32 with h := h }, responses := s.responses ++ [⟨.ok, 0⟩, ⟨.invalidCarry, 0⟩] }
      runPseudo (restore32 h carry) s = stopped ∧ runPseudo (incrementalProcess32 h carry B) s = stopped ∧
      runPseudo (incrementalResult32 h carry total) s = stopped) ∧
    ((carry.extractLsb' 0 8).toNat < 4 →
      runPseudo (restore32 h carry) s = execList [.wrh32 h, .wrc32 carry] s ∧
      runPseudo (incrementalProcess32 h carry B) s =
        execList ([.wrh32 h, .wrc32 carry] ++ process32 B ++ [.rdh32, .rdc32]) s ∧
      runPseudo (incrementalResult32 h carry total) s = execList [.wrh32 h, .wrc32 carry, .result32 total] s)) ∧
  (∀ (h0 h1 carry0 carry1 : Word64) (total : Word32) (B : List Byte) (s : State),
    (16 ≤ (carry1.extractLsb' 0 8).toNat →
      let stopped : Answer :=
        .next { s with bank128 := { s.bank128 with h1 := h0, h2 := h1 },
                       responses := s.responses ++ [⟨.ok, 0⟩, ⟨.invalidCarry, 0⟩] }
      runPseudo (restore128 h0 h1 carry0 carry1) s = stopped ∧
      runPseudo (incrementalProcess128 h0 h1 carry0 carry1 B) s = stopped ∧
      runPseudo (incrementalResult128 h0 h1 carry0 carry1 total) s = stopped) ∧
    ((carry1.extractLsb' 0 8).toNat < 16 →
      runPseudo (restore128 h0 h1 carry0 carry1) s = execList [.wrh128 h0 h1, .wrc128 (carry1 ++ carry0)] s ∧
      runPseudo (incrementalProcess128 h0 h1 carry0 carry1 B) s =
        execList ([.wrh128 h0 h1, .wrc128 (carry1 ++ carry0)] ++ process128 B ++ [.rdh128, .rdc128]) s ∧
      runPseudo (incrementalResult128 h0 h1 carry0 carry1 total) s =
        execList [.wrh128 h0 h1, .wrc128 (carry1 ++ carry0), .result128 .full total] s)) ∧
  (∀ (seed : Word32) (form : DigestForm) (B : List Byte) (s : State),
    runPseudo (process32 B) s = execList (process32 B) s ∧ runPseudo (process128 B) s = execList (process128 B) s ∧
    runPseudo (hash32 seed B) s =
      execList ([.init32 seed] ++ process32 B ++ [.result32 (BitVec.ofNat 32 B.length)]) s ∧
    runPseudo (hash128 form seed B) s =
      execList ([.init128 seed] ++ process128 B ++ [.result128 form (BitVec.ofNat 32 B.length)]) s ∧
    runPseudo save32 s = execList [.rdh32, .rdc32] s ∧ runPseudo save128 s = execList [.rdh128, .rdc128] s)

/-! ### The datapath -/

/-- R91 and R92: bit `i` goes to bit `(i + r) mod N`. -/
def Obligations.RotateMovesEveryBit : Prop :=
  (∀ (x : Word32) (r i : Nat), 0 < r → r < 32 → i < 32 → (rotl32 x r).getLsbD ((i + r) % 32) = x.getLsbD i) ∧
  (∀ (x : Word64) (r i : Nat), 0 < r → r < 64 → i < 64 → (rotl64 x r).getLsbD ((i + r) % 64) = x.getLsbD i)

/-- 20_memory.md R42: byte `i` of the assembled word is byte `i` of the string, and the missing ones are 0; for both lane widths. -/
def Obligations.AssemblyIsLittleEndian : Prop :=
  (∀ (bs : List Byte) (i : Nat), i < 4 → byteAt (le 32 bs) i = bs.getD i 0) ∧
  (∀ (bs : List Byte) (i : Nat), i < 8 → byteAt (le 64 bs) i = bs.getD i 0) ∧
  (∀ w : Payload, le 32 (payloadBytes w 4) = w.extractLsb' 0 32) ∧
  (∀ w : Payload, le 64 (payloadBytes w 8) = w.extractLsb' 0 64 ∧ le 64 ((payloadBytes w 16).drop 8) = w.extractLsb' 64 64)

/-- Worked values of R95, R96, R97, R100, R101 and R102 (sanity). -/
def Obligations.DatapathWorkedValues : Prop :=
  scr32 mmh3c 0x87654321 = 0x5082EDEE ∧ mix32 mmh3c 0x9747B28C 0x03020100 = 0x46EE5457 ∧
  fmix32 mmh3c 0xDEADBEEF = 0x0DE5C6A9 ∧ scr64A mmh3c 0x0706050403020100 = 0xDF62D7CBEAB5358E ∧
  scr64B mmh3c 0x0F0E0D0C0B0A0908 = 0xC541F873A7AEC42D ∧
  mix128 mmh3c 0 0 0x0706050403020100 0x0F0E0D0C0B0A0908 = (0xDCAC505EA5C458DF, 0x72927C4BE244042D) ∧
  fmix64 mmh3c 3 = 0x0B5181C509F8D8CE

/-- The pseudo-code of R95 to R105, each function for every operand, with the rotation of the library: a wrong constant, rotation, shift
or order makes this false. -/
def Obligations.DatapathFollowsItsFormulas : Prop :=
  (∀ k : Word32, scr32 mmh3c k = (k * 0xCC9E2D51).rotateLeft 15 * 0x1B873593) ∧
  (∀ h k : Word32, mix32 mmh3c h k = (h ^^^ scr32 mmh3c k).rotateLeft 13 * 5 + 0xE6546B64) ∧
  (∀ h : Word32,
    let c := (h ^^^ (h >>> 16)) * 0x85EBCA6B
    let d := (c ^^^ (c >>> 13)) * 0xC2B2AE35
    fmix32 mmh3c h = d ^^^ (d >>> 16)) ∧
  (∀ (h total : Word32) (cnt : Fin 4) (buf : Vector Byte 3),
    tail32 mmh3c h cnt buf = (if cnt = 0 then h else h ^^^ scr32 mmh3c (le 32 (buf.toList.take cnt.val))) ∧
    final32 mmh3c h cnt buf total = fmix32 mmh3c (tail32 mmh3c h cnt buf ^^^ total)) ∧
  (∀ k : Word64, scr64A mmh3c k = (k * 0x87C37B91114253D5).rotateLeft 31 * 0x4CF5AD432745937F ∧
    scr64B mmh3c k = (k * 0x4CF5AD432745937F).rotateLeft 33 * 0x87C37B91114253D5) ∧
  (∀ h1 h2 k1 k2 : Word64,
    let n1 := ((h1 ^^^ scr64A mmh3c k1).rotateLeft 27 + h2) * 5 + 0x52DCE729
    mix128 mmh3c h1 h2 k1 k2 = (n1, ((h2 ^^^ scr64B mmh3c k2).rotateLeft 31 + n1) * 5 + 0x38495AB5)) ∧
  (∀ k : Word64,
    let c := (k ^^^ (k >>> 33)) * 0xFF51AFD7ED558CCD
    let d := (c ^^^ (c >>> 33)) * 0xC4CEB9FE1A85EC53
    fmix64 mmh3c k = d ^^^ (d >>> 33)) ∧
  (∀ (h1 h2 : Word64) (cnt : Fin 16) (buf : Vector Byte 15), tail128 mmh3c h1 h2 cnt buf =
    (if cnt = 0 then h1 else h1 ^^^ scr64A mmh3c (le 64 (buf.toList.take (min cnt.val 8))),
     if cnt.val ≤ 8 then h2 else h2 ^^^ scr64B mmh3c (le 64 ((buf.toList.take cnt.val).drop 8)))) ∧
  (∀ (h1 h2 : Word64) (cnt : Fin 16) (buf : Vector Byte 15) (total : Word32),
    let u1 := (tail128 mmh3c h1 h2 cnt buf).1 ^^^ BitVec.ofNat 64 total.toNat
    let u2 := (tail128 mmh3c h1 h2 cnt buf).2 ^^^ BitVec.ofNat 64 total.toNat
    let w1 := fmix64 mmh3c (u1 + u2)
    let w2 := fmix64 mmh3c (u2 + (u1 + u2))
    final128 mmh3c h1 h2 cnt buf total = (w1 + w2, w2 + (w1 + w2))) ∧
  (∀ d1 d2 : Word64, digestBytes d1 d2 .full = d2 ++ d1 ∧ digestBytes d1 d2 .first8 = BitVec.ofNat 128 d1.toNat ∧
    digestBytes d1 d2 .first4 = BitVec.ofNat 128 (d1.toNat % 2 ^ 32))

/-- The bijections of R95, R96 and R97. -/
def Obligations.X86FunctionsAreBijections : Prop :=
  Function.Bijective (scr32 mmh3c) ∧ Function.Bijective (fmix32 mmh3c) ∧
  (∀ k, Function.Bijective fun h => mix32 mmh3c h k) ∧ (∀ h, Function.Bijective fun k => mix32 mmh3c h k)

/-- The bijections of R100, R101 and R102. -/
def Obligations.X64FunctionsAreBijections : Prop :=
  Function.Bijective (scr64A mmh3c) ∧ Function.Bijective (scr64B mmh3c) ∧ Function.Bijective (fmix64 mmh3c) ∧
  ∀ k1 k2, Function.Bijective fun h : Word64 × Word64 => mix128 mmh3c h.1 h.2 k1 k2

/-- 43_nop_and_laws.md section 4: for a fixed input, different seeds give different x86_32 digests, and every digest has a seed. -/
def Obligations.SeedToDigest32IsABijection : Prop :=
  ∀ B : List Byte, Function.Bijective (oneShot32 mmh3c B)

/-- R98 and R103: in canonical form the tail fold may take the whole buffer, and a tail of zero bytes leaves the lanes as they
are. -/
def Obligations.TailFoldIgnoresAbsentBytes : Prop :=
  (∀ b : Bank32, b.Canonical → tail32 mmh3c b.h b.cnt b.buf = b.h ^^^ scr32 mmh3c (le 32 b.buf.toList)) ∧
  (∀ b : Bank128, b.Canonical → tail128 mmh3c b.h1 b.h2 b.cnt b.buf =
    (b.h1 ^^^ scr64A mmh3c (le 64 (b.buf.toList.take 8)), b.h2 ^^^ scr64B mmh3c (le 64 (b.buf.toList.drop 8)))) ∧
  (∀ (h : Word32) (cnt : Fin 4), tail32 mmh3c h cnt (Vector.ofFn fun _ => 0) = h) ∧
  (∀ (h1 h2 : Word64) (cnt : Fin 16), tail128 mmh3c h1 h2 cnt (Vector.ofFn fun _ => 0) = (h1, h2))

/-- R24: the marker, each valid byte and every other bit of the packed carry of bank 32. -/
def Obligations.Pack32PlacesEveryByte : Prop :=
  ∀ (cnt : Fin 4) (buf : Vector Byte 3),
    (pack32 cnt buf).extractLsb' 0 8 = BitVec.ofNat 8 cnt.val ∧
    (∀ i : Fin 3, i.val < cnt.val → (pack32 cnt buf).extractLsb' (8 * (4 - cnt.val + i.val)) 8 = buf[i]) ∧
    (∀ j, 0 < j → j < 4 - cnt.val → (pack32 cnt buf).extractLsb' (8 * j) 8 = 0)

/-- R26: the same for bank 128, in the words `c1` and `c2`. -/
def Obligations.Pack128PlacesEveryByte : Prop :=
  ∀ (cnt : Fin 16) (buf : Vector Byte 15),
    let c1 := (pack128 cnt buf).extractLsb' 0 64
    let c2 := (pack128 cnt buf).extractLsb' 64 64
    c2.extractLsb' 0 8 = BitVec.ofNat 8 cnt.val ∧
    (cnt.val ≤ 8 → c2.toNat = cnt.val ∧
      (∀ i : Fin 15, i.val < cnt.val → c1.extractLsb' (8 * (8 - cnt.val + i.val)) 8 = buf[i]) ∧
      (∀ j, j < 8 - cnt.val → c1.extractLsb' (8 * j) 8 = 0)) ∧
    (8 < cnt.val →
      (∀ i : Fin 15, i.val < 8 → c1.extractLsb' (8 * i.val) 8 = buf[i]) ∧
      (∀ i : Fin 15, 8 ≤ i.val → i.val < cnt.val → c2.extractLsb' (8 * (16 - cnt.val + (i.val - 8))) 8 = buf[i]) ∧
      (∀ j, 0 < j → j < 16 - cnt.val → c2.extractLsb' (8 * j) 8 = 0))

/-- R25 and R27: a malformed image is one whose marker byte is out of range, and unpacking a packed canonical carry gives it
back. -/
def Obligations.UnpackInvertsPack : Prop :=
  (∀ w : Word32, unpack32 w = none ↔ 4 ≤ (w.extractLsb' 0 8).toNat) ∧
  (∀ w : Payload, unpack128 w = none ↔ 16 ≤ (w.extractLsb' 64 8).toNat) ∧
  (∀ b : Bank32, b.Canonical → unpack32 (pack32 b.cnt b.buf) = some (b.cnt, b.buf)) ∧
  (∀ b : Bank128, b.Canonical → unpack128 (pack128 b.cnt b.buf) = some (b.cnt, b.buf))
end

