-- ==== Sys2Proof/Laws/Bytes.lean ====
section
/-!
SUPPORT. What byte lanes and little-endian assembly are, bit by bit and byte by byte.
-/

namespace Sys2Proof.Machine

@[simp] theorem le_nil (w : Nat) : le w [] = 0 := rfl

@[simp] theorem le_cons (w : Nat) (b : Byte) (bs : List Byte) : le w (b :: bs) = (le w bs <<< 8) ||| b.setWidth w := rfl

theorem getLsbD_byteAt {w : Nat} (v : BitVec w) (i j : Nat) :
    (byteAt v i).getLsbD j = (decide (j < 8) && v.getLsbD (8 * i + j)) := by
  simp [byteAt, BitVec.getLsbD_extractLsb']

/-- Bit `n` of the assembled word is bit `n mod 8` of byte `n div 8`. -/
theorem getLsbD_le (w : Nat) (bs : List Byte) (n : Nat) :
    (le w bs).getLsbD n = (decide (n < w) && (bs.getD (n / 8) 0).getLsbD (n % 8)) := by
  induction bs generalizing n with
  | nil => simp
  | cons b bs ih =>
    rw [le_cons, BitVec.getLsbD_or, BitVec.getLsbD_shiftLeft, BitVec.getLsbD_setWidth, ih]
    by_cases h : n < 8
    · have h0 : n / 8 = 0 := by omega
      simp [h, h0, Nat.mod_eq_of_lt h]
    · obtain ⟨m, rfl⟩ : ∃ m, n = m + 8 := ⟨n - 8, by omega⟩
      have hd : (m + 8) / 8 = m / 8 + 1 := by omega
      have hb : b.getLsbD (m + 8) = false := BitVec.getLsbD_of_ge b _ (by omega)
      by_cases hw : m + 8 < w
      · simp [hd, hw, show m < w by omega]
      · simp [hd, hw]

/-- Byte `i` of the assembled word is byte `i` of the string, 0 where there is none. -/
theorem byteAt_le (w : Nat) (bs : List Byte) (i : Nat) (h : 8 * i + 8 ≤ w) : byteAt (le w bs) i = bs.getD i 0 := by
  apply BitVec.eq_of_getLsbD_eq
  intro j hj
  rw [getLsbD_byteAt, getLsbD_le]
  have h1 : (8 * i + j) / 8 = i := by omega
  have h2 : (8 * i + j) % 8 = j := by omega
  simp [h1, h2, hj, show 8 * i + j < w by omega]

/-- Two values with the same bytes are equal. -/
theorem eq_of_byteAt_eq {n : Nat} (v v' : BitVec (8 * n)) (h : ∀ i < n, byteAt v i = byteAt v' i) : v = v' := by
  apply BitVec.eq_of_getLsbD_eq
  intro k hk
  have := congrArg (fun b => b.getLsbD (k % 8)) (h (k / 8) (by omega))
  simp only [getLsbD_byteAt] at this
  have hm : k % 8 < 8 := Nat.mod_lt _ (by decide)
  have hs : 8 * (k / 8) + k % 8 = k := by omega
  simpa [hm, hs] using this

@[simp] theorem lanes_zero (v : Payload) : lanes v 0 = [] := rfl

@[simp] theorem length_lanes (v : Payload) (n : Nat) : (lanes v n).length = n := by simp [lanes]

/-- The lanes of a payload that carries a beat are the beat. -/
theorem lanes_le (bs : List Byte) (h : bs.length ≤ 16) : lanes (le 128 bs) bs.length = bs := by
  apply List.ext_getElem
  · simp
  · intro i h1 h2
    simp only [lanes, List.getElem_map, List.getElem_range]
    rw [byteAt_le _ _ _ (by omega)]
    simp [h2]

/-- Absent bytes count as 0: appending zero bytes changes no assembled word. -/
theorem le_append_zeros (w : Nat) (bs : List Byte) (n : Nat) : le w (bs ++ List.replicate n 0) = le w bs := by
  apply BitVec.eq_of_getLsbD_eq
  intro k _
  rw [getLsbD_le, getLsbD_le]
  congr 2
  by_cases h : k / 8 < bs.length
  · simp [List.getD_eq_getElem?_getD, List.getElem?_append_left h]
  · rw [List.getD_eq_getElem?_getD, List.getElem?_append_right (by omega), List.getElem?_replicate]
    rw [List.getD_eq_default _ _ (by omega)]
    split <;> rfl

/-- Byte `i` of a padded buffer. -/
@[simp] theorem getElem_padded (n : Nat) (xs : List Byte) (i : Nat) (h : i < n) : (padded n xs)[i] = xs.getD i 0 := by
  simp [padded]

end Sys2Proof.Machine
end

