-- ==== Sys2Proof/Laws/Bank.lean ====
section
/-!
SUPPORT. What one byte, and a beat of bytes, does to a bank: it is buffered, or it completes a block, which is mixed.
-/

namespace Sys2Proof.Machine

open Sys2Proof

/-- A byte that finds room is buffered; the lane stays. -/
theorem pushByte32_of_room (K : Config) (b : Bank32) (x : Byte) (h : b.cnt.val < 3) :
    pushByte32 K b x = { b with cnt := ⟨b.cnt.val + 1, by omega⟩, buf := b.buf.set b.cnt.val x h } := by
  simp [pushByte32, Config.carryMax32, h]

/-- The fourth byte completes a block. -/
theorem pushByte32_of_full (K : Config) (b : Bank32) (x : Byte) (h : ¬ b.cnt.val < 3) :
    pushByte32 K b x =
      { h := mix32 K b.h (le 32 (b.buf.toList ++ [x])), cnt := 0, buf := Vector.replicate 3 0 } := by
  simp [pushByte32, Config.carryMax32, h]

@[simp] theorem pushBytes32_nil (K : Config) (b : Bank32) : pushBytes32 K b [] = b := rfl

@[simp] theorem pushBytes32_cons (K : Config) (b : Bank32) (x : Byte) (xs : List Byte) :
    pushBytes32 K b (x :: xs) = pushBytes32 K (pushByte32 K b x) xs := rfl

/-- The loop does not see the boundary between two beats. -/
theorem pushBytes32_append (K : Config) (b : Bank32) (xs ys : List Byte) :
    pushBytes32 K b (xs ++ ys) = pushBytes32 K (pushBytes32 K b xs) ys := by
  simp [pushBytes32, List.foldl_append]

/-- A byte that finds room is buffered; the lanes stay. -/
theorem pushByte128_of_room (K : Config) (b : Bank128) (x : Byte) (h : b.cnt.val < 15) :
    pushByte128 K b x = { b with cnt := ⟨b.cnt.val + 1, by omega⟩, buf := b.buf.set b.cnt.val x h } := by
  simp [pushByte128, Config.carryMax128, h]

/-- The sixteenth byte completes a block. -/
theorem pushByte128_of_full (K : Config) (b : Bank128) (x : Byte) (h : ¬ b.cnt.val < 15) :
    pushByte128 K b x =
      { h1 := (mix128 K b.h1 b.h2 (le 64 (b.buf.toList.take 8)) (le 64 (b.buf.toList.drop 8 ++ [x]))).1,
        h2 := (mix128 K b.h1 b.h2 (le 64 (b.buf.toList.take 8)) (le 64 (b.buf.toList.drop 8 ++ [x]))).2,
        cnt := 0, buf := Vector.replicate 15 0 } := by
  simp [pushByte128, Config.carryMax128, h]

@[simp] theorem pushBytes128_nil (K : Config) (b : Bank128) : pushBytes128 K b [] = b := rfl

@[simp] theorem pushBytes128_cons (K : Config) (b : Bank128) (x : Byte) (xs : List Byte) :
    pushBytes128 K b (x :: xs) = pushBytes128 K (pushByte128 K b x) xs := rfl

/-- The loop does not see the boundary between two beats. -/
theorem pushBytes128_append (K : Config) (b : Bank128) (xs ys : List Byte) :
    pushBytes128 K b (xs ++ ys) = pushBytes128 K (pushBytes128 K b xs) ys := by
  simp [pushBytes128, List.foldl_append]

/-- A byte keeps the canonical form. -/
theorem pushByte32_canonical (K : Config) (b : Bank32) (x : Byte) (hb : b.Canonical) : (pushByte32 K b x).Canonical := by
  intro i hi
  by_cases h : b.cnt.val < 3
  · rw [pushByte32_of_room K b x h] at hi ⊢
    simp only [Fin.getElem_fin] at hi ⊢
    rw [Vector.getElem_set_ne _ _ (by omega)]
    exact hb i (by omega)
  · rw [pushByte32_of_full K b x h]
    simp

/-- A byte keeps the canonical form. -/
theorem pushByte128_canonical (K : Config) (b : Bank128) (x : Byte) (hb : b.Canonical) : (pushByte128 K b x).Canonical := by
  intro i hi
  by_cases h : b.cnt.val < 15
  · rw [pushByte128_of_room K b x h] at hi ⊢
    simp only [Fin.getElem_fin] at hi ⊢
    rw [Vector.getElem_set_ne _ _ (by omega)]
    exact hb i (by omega)
  · rw [pushByte128_of_full K b x h]
    simp

/-- A beat keeps the canonical form. -/
theorem pushBytes32_canonical (K : Config) (b : Bank32) (xs : List Byte) (hb : b.Canonical) : (pushBytes32 K b xs).Canonical := by
  induction xs generalizing b with
  | nil => exact hb
  | cons x xs ih => exact ih _ (pushByte32_canonical K b x hb)

/-- A beat keeps the canonical form. -/
theorem pushBytes128_canonical (K : Config) (b : Bank128) (xs : List Byte) (hb : b.Canonical) :
    (pushBytes128 K b xs).Canonical := by
  induction xs generalizing b with
  | nil => exact hb
  | cons x xs ih => exact ih _ (pushByte128_canonical K b x hb)

/-- The valid bytes of bank 32 after a byte that finds room. -/
theorem pushByte32_valid (K : Config) (b : Bank32) (x : Byte) (h : b.cnt.val < 3) :
    (pushByte32 K b x).buf.toList.take (pushByte32 K b x).cnt.val = b.buf.toList.take b.cnt.val ++ [x] := by
  rw [pushByte32_of_room _ _ _ h]
  simp only [Vector.toList_set]
  apply List.ext_getElem
  · simp
    omega
  · intro i h1 h2
    simp only [List.length_take, List.length_set, Vector.length_toList] at h1
    rw [List.getElem_take, List.getElem_set, List.getElem_append]
    by_cases e : b.cnt.val = i
    · subst e
      simp
    · rw [if_neg e, dif_pos (by simp; omega), List.getElem_take]

/-- The valid bytes of bank 128 after a byte that finds room. -/
theorem pushByte128_valid (K : Config) (b : Bank128) (x : Byte) (h : b.cnt.val < 15) :
    (pushByte128 K b x).buf.toList.take (pushByte128 K b x).cnt.val = b.buf.toList.take b.cnt.val ++ [x] := by
  rw [pushByte128_of_room _ _ _ h]
  simp only [Vector.toList_set]
  apply List.ext_getElem
  · simp
    omega
  · intro i h1 h2
    simp only [List.length_take, List.length_set, Vector.length_toList] at h1
    rw [List.getElem_take, List.getElem_set, List.getElem_append]
    by_cases e : b.cnt.val = i
    · subst e
      simp
    · rw [if_neg e, dif_pos (by simp; omega), List.getElem_take]

/-- Bytes that complete no block are buffered after the valid ones. -/
theorem pushBytes32_fit (K : Config) (b : Bank32) (xs : List Byte) (h : b.cnt.val + xs.length < 4) :
    (pushBytes32 K b xs).h = b.h ∧ (pushBytes32 K b xs).cnt.val = b.cnt.val + xs.length ∧
      (pushBytes32 K b xs).buf.toList.take (pushBytes32 K b xs).cnt.val = b.buf.toList.take b.cnt.val ++ xs := by
  induction xs generalizing b with
  | nil => simp
  | cons x xs ih =>
    simp only [List.length_cons] at h
    have e := pushByte32_of_room K b x (by omega)
    have hb := ih (pushByte32 K b x) (by rw [e]; simp only; omega)
    rw [pushBytes32_cons]
    refine ⟨by rw [hb.1, e], by rw [hb.2.1, e]; simp only [List.length_cons]; omega, ?_⟩
    rw [hb.2.2, pushByte32_valid _ _ _ (by omega)]
    simp

/-- Bytes that complete no block are buffered after the valid ones. -/
theorem pushBytes128_fit (K : Config) (b : Bank128) (xs : List Byte) (h : b.cnt.val + xs.length < 16) :
    (pushBytes128 K b xs).h1 = b.h1 ∧ (pushBytes128 K b xs).h2 = b.h2 ∧
      (pushBytes128 K b xs).cnt.val = b.cnt.val + xs.length ∧
      (pushBytes128 K b xs).buf.toList.take (pushBytes128 K b xs).cnt.val = b.buf.toList.take b.cnt.val ++ xs := by
  induction xs generalizing b with
  | nil => simp
  | cons x xs ih =>
    simp only [List.length_cons] at h
    have e := pushByte128_of_room K b x (by omega)
    have hb := ih (pushByte128 K b x) (by rw [e]; simp only; omega)
    rw [pushBytes128_cons]
    refine ⟨by rw [hb.1, e], by rw [hb.2.1, e], by rw [hb.2.2.1, e]; simp only [List.length_cons]; omega, ?_⟩
    rw [hb.2.2.2, pushByte128_valid _ _ _ (by omega)]
    simp

/-- Bytes that complete one block exactly: it is mixed, and the carry is empty. -/
theorem pushBytes32_block (K : Config) (b : Bank32) (xs : List Byte) (h : b.cnt.val + xs.length = 4) :
    pushBytes32 K b xs =
      { h := mix32 K b.h (le 32 (b.buf.toList.take b.cnt.val ++ xs)), cnt := 0, buf := Vector.replicate 3 0 } := by
  obtain ⟨ys, y, rfl⟩ : ∃ ys y, xs = ys ++ [y] := by
    have hne : xs ≠ [] := by
      rintro rfl
      simp at h
      omega
    exact ⟨xs.dropLast, xs.getLast hne, (List.dropLast_append_getLast hne).symm⟩
  simp only [List.length_append, List.length_cons, List.length_nil] at h
  have f := pushBytes32_fit K b ys (by omega)
  have hl : (pushBytes32 K b ys).buf.toList = b.buf.toList.take b.cnt.val ++ ys := by
    rw [← f.2.2, List.take_of_length_le (by simp; omega)]
  rw [pushBytes32_append, pushBytes32_cons, pushBytes32_nil, pushByte32_of_full _ _ _ (by omega), f.1, hl, List.append_assoc]

/-- Bytes that complete one block exactly: it is mixed, and the carry is empty. -/
theorem pushBytes128_block (K : Config) (b : Bank128) (xs : List Byte) (h : b.cnt.val + xs.length = 16) :
    pushBytes128 K b xs =
      let block := b.buf.toList.take b.cnt.val ++ xs
      let lanes' := mix128 K b.h1 b.h2 (le 64 (block.take 8)) (le 64 (block.drop 8))
      { h1 := lanes'.1, h2 := lanes'.2, cnt := 0, buf := Vector.replicate 15 0 } := by
  obtain ⟨ys, y, rfl⟩ : ∃ ys y, xs = ys ++ [y] := by
    have hne : xs ≠ [] := by
      rintro rfl
      simp at h
      omega
    exact ⟨xs.dropLast, xs.getLast hne, (List.dropLast_append_getLast hne).symm⟩
  simp only [List.length_append, List.length_cons, List.length_nil] at h
  have f := pushBytes128_fit K b ys (by omega)
  have hl : (pushBytes128 K b ys).buf.toList = b.buf.toList.take b.cnt.val ++ ys := by
    rw [← f.2.2.2, List.take_of_length_le (by simp; omega)]
  have hn : (b.buf.toList.take b.cnt.val ++ ys).length = 15 := by rw [← hl]; simp
  rw [pushBytes128_append, pushBytes128_cons, pushBytes128_nil, pushByte128_of_full _ _ _ (by omega), f.1, f.2.1, hl]
  simp only [← List.append_assoc]
  rw [List.take_append_of_le_length (l₁ := b.buf.toList.take b.cnt.val ++ ys) (by omega),
    List.drop_append_of_le_length (l₁ := b.buf.toList.take b.cnt.val ++ ys) (by omega)]

/-- A beat that completes a block: the block is mixed, and the rest of the beat goes into an empty carry. -/
theorem pushBytes32_over (K : Config) (b : Bank32) (xs : List Byte) (h : 4 ≤ b.cnt.val + xs.length) :
    pushBytes32 K b xs =
      pushBytes32 K
        { h := mix32 K b.h (le 32 (b.buf.toList.take b.cnt.val ++ xs.take (4 - b.cnt.val))), cnt := 0,
          buf := Vector.replicate 3 0 } (xs.drop (4 - b.cnt.val)) := by
  conv => lhs; rw [← List.take_append_drop (4 - b.cnt.val) xs]
  rw [pushBytes32_append, pushBytes32_block K b]
  rw [List.length_take]
  omega

/-- A beat that completes a block: the block is mixed, and the rest of the beat goes into an empty carry. -/
theorem pushBytes128_over (K : Config) (b : Bank128) (xs : List Byte) (h : 16 ≤ b.cnt.val + xs.length) :
    pushBytes128 K b xs =
      let block := b.buf.toList.take b.cnt.val ++ xs.take (16 - b.cnt.val)
      let lanes' := mix128 K b.h1 b.h2 (le 64 (block.take 8)) (le 64 (block.drop 8))
      pushBytes128 K { h1 := lanes'.1, h2 := lanes'.2, cnt := 0, buf := Vector.replicate 15 0 }
        (xs.drop (16 - b.cnt.val)) := by
  conv => lhs; rw [← List.take_append_drop (16 - b.cnt.val) xs]
  rw [pushBytes128_append, pushBytes128_block K b]
  rw [List.length_take]
  omega

end Sys2Proof.Machine
end

