-- ==== Sys2Proof/Laws/Decode.lean ====
section
/-!
SUPPORT. The fields of a command word, and what a word that decodes can be.
-/

namespace Sys2Proof

open Sys2Proof.Machine

/-- The four fields of a command word are what it was built from, and `RSV` is 0. -/
theorem fieldOp_commandWord {op : Nat} (var tr nb : Nat) (h : op < 16) : fieldOp (commandWord op var tr nb) = op := by
  have : (commandWord op var tr nb).extractLsb' 0 4 = BitVec.ofNat 4 op := by
    apply BitVec.eq_of_getLsbD_eq
    intro i hi
    simp only [commandWord, BitVec.getLsbD_extractLsb', BitVec.getLsbD_append]
    simp [hi]
  rw [fieldOp, this, BitVec.toNat_ofNat, Nat.mod_eq_of_lt h]

theorem fieldVar_commandWord {var : Nat} (op tr nb : Nat) (h : var < 4) : fieldVar (commandWord op var tr nb) = var := by
  have : (commandWord op var tr nb).extractLsb' 4 2 = BitVec.ofNat 2 var := by
    apply BitVec.eq_of_getLsbD_eq
    intro i hi
    simp only [commandWord, BitVec.getLsbD_extractLsb', BitVec.getLsbD_append]
    simp [show ¬ 4 + i < 4 by omega, show 4 + i - 4 = i by omega, hi]
  rw [fieldVar, this, BitVec.toNat_ofNat, Nat.mod_eq_of_lt h]

theorem fieldTr_commandWord {tr : Nat} (op var nb : Nat) (h : tr < 4) : fieldTr (commandWord op var tr nb) = tr := by
  have : (commandWord op var tr nb).extractLsb' 6 2 = BitVec.ofNat 2 tr := by
    apply BitVec.eq_of_getLsbD_eq
    intro i hi
    simp only [commandWord, BitVec.getLsbD_extractLsb', BitVec.getLsbD_append]
    simp [show ¬ 6 + i < 4 by omega, show 6 + i - 4 - 2 = i by omega, show ¬ 6 + i - 4 < 2 by omega, hi]
  rw [fieldTr, this, BitVec.toNat_ofNat, Nat.mod_eq_of_lt h]

theorem fieldNb_commandWord {nb : Nat} (op var tr : Nat) (h : nb < 32) : fieldNb (commandWord op var tr nb) = nb := by
  have : (commandWord op var tr nb).extractLsb' 8 5 = BitVec.ofNat 5 nb := by
    apply BitVec.eq_of_getLsbD_eq
    intro i hi
    simp only [commandWord, BitVec.getLsbD_extractLsb', BitVec.getLsbD_append]
    simp [show ¬ 8 + i < 4 by omega, show 8 + i - 4 - 2 - 2 = i by omega, show ¬ 8 + i - 4 < 2 by omega,
      show ¬ 8 + i - 4 - 2 < 2 by omega, hi]
  rw [fieldNb, this, BitVec.toNat_ofNat, Nat.mod_eq_of_lt h]

theorem fieldRsv_commandWord (op var tr nb : Nat) : fieldRsv (commandWord op var tr nb) = 0 := by
  have : (commandWord op var tr nb).extractLsb' 13 19 = 0 := by
    apply BitVec.eq_of_getLsbD_eq
    intro i hi
    simp only [commandWord, BitVec.getLsbD_extractLsb', BitVec.getLsbD_append]
    simp [show ¬ 13 + i < 4 by omega, show ¬ 13 + i - 4 < 2 by omega, show ¬ 13 + i - 4 - 2 < 2 by omega,
      show ¬ 13 + i - 4 - 2 - 2 < 5 by omega]
  rw [fieldRsv, this]
  rfl

/-- A word whose `RSV` is 0 is its other four fields. -/
theorem commandWord_of_fields (c : Word32) (h : fieldRsv c = 0) :
    c = commandWord (fieldOp c) (fieldVar c) (fieldTr c) (fieldNb c) := by
  have h0 : c.extractLsb' 13 19 = 0 := BitVec.eq_of_toNat_eq h
  have hb : ∀ i < 19, c.getLsbD (13 + i) = false := fun i hi => by
    have := congrArg (fun v => v.getLsbD i) h0
    simpa [BitVec.getLsbD_extractLsb', hi] using this
  apply BitVec.eq_of_getLsbD_eq
  intro i hi
  simp only [commandWord, fieldOp, fieldVar, fieldTr, fieldNb, BitVec.ofNat_toNat, BitVec.setWidth_eq,
    BitVec.getLsbD_append, BitVec.getLsbD_extractLsb']
  by_cases hlow : i < 13
  · clear hb h0 h
    interval_cases i <;> simp
  · have := hb (i - 13) (by omega)
    rw [show 13 + (i - 13) = i by omega] at this
    rw [this]
    simp [show ¬ i < 4 by omega, show ¬ i - 4 < 2 by omega, show ¬ i - 4 - 2 < 2 by omega, show ¬ i - 4 - 2 - 2 < 5 by omega]

/-- The rows of the opcode table, each with its command words and where its operands stand in the payload (30_encoding.md R66,
R68). -/
inductive Row : Command → Instr → Prop where
  | nop (w : Payload) : Row ⟨0x00000000, w⟩ .nop
  | init32 (w : Payload) : Row ⟨0x00000001, w⟩ (.init32 (w.extractLsb' 0 32))
  | push32 (n : Nat) (w : Payload) (h : n ≤ 4) : Row ⟨commandWord 2 0 0 n, w⟩ (.push32 (lanes w n))
  | result32 (w : Payload) : Row ⟨0x00000003, w⟩ (.result32 (w.extractLsb' 0 32))
  | rdh32 (w : Payload) : Row ⟨0x00000004, w⟩ .rdh32
  | rdc32 (w : Payload) : Row ⟨0x00000005, w⟩ .rdc32
  | wrh32 (w : Payload) : Row ⟨0x00000006, w⟩ (.wrh32 (w.extractLsb' 0 32))
  | wrc32 (w : Payload) : Row ⟨0x00000007, w⟩ (.wrc32 (w.extractLsb' 0 32))
  | init128 (w : Payload) : Row ⟨0x00000011, w⟩ (.init128 (w.extractLsb' 0 32))
  | push128 (n : Nat) (w : Payload) (h : n ≤ 16) : Row ⟨commandWord 2 1 0 n, w⟩ (.push128 (lanes w n))
  | result128 (f : DigestForm) (w : Payload) :
      Row ⟨commandWord 3 1 (trOfForm f) 0, w⟩ (.result128 f (w.extractLsb' 0 32))
  | rdh128 (w : Payload) : Row ⟨0x00000014, w⟩ .rdh128
  | rdc128 (w : Payload) : Row ⟨0x00000015, w⟩ .rdc128
  | wrh128 (w : Payload) : Row ⟨0x00000016, w⟩ (.wrh128 (w.extractLsb' 0 64) (w.extractLsb' 64 64))
  | wrc128 (w : Payload) : Row ⟨0x00000017, w⟩ (.wrc128 w)

/-- A command that decodes is a row of the table: what later proofs cite instead of unfolding the decoder. -/
theorem row_of_decode_ok {c : Command} {i : Instr} (h : decode c = .ok i) : Row c i := by
  obtain ⟨cmd, w⟩ := c
  have hc := commandWord_of_fields cmd
  have b1 : fieldTr cmd < 4 := (cmd.extractLsb' 6 2).isLt
  simp only [decode] at h
  generalize fieldOp cmd = op at *
  generalize fieldVar cmd = var at *
  generalize fieldTr cmd = tr at *
  generalize fieldNb cmd = nb at *
  split at h
  · cases h
  rw [hc (by simpa using ‹¬fieldRsv cmd ≠ 0›)]
  clear hc
  split at h
  · cases h
  split at h
  · cases h
  by_cases hop : op = 2
  · subst hop
    simp only [if_false, show ¬ (2 = 0) by decide, show ¬ (2 ≠ 2 ∧ nb ≠ 0) by simp, show ¬ (2 = 3 ∧ var = 1) by simp] at h
    have htr : tr = 0 := by
      by_contra hne
      simp [hne] at h
    subst htr
    obtain rfl | rfl : var = 0 ∨ var = 1 := by omega
    · simp only [decodeNamed, Config.block32] at h
      have hn : nb ≤ 4 := by
        by_contra hn
        simp [show 4 < nb by omega] at h
      simp [show ¬ 4 < nb by omega] at h
      exact h ▸ .push32 nb w hn
    · simp only [decodeNamed, Config.block128] at h
      have hn : nb ≤ 16 := by
        by_contra hn
        simp [show 16 < nb by omega] at h
      simp [show ¬ 16 < nb by omega] at h
      exact h ▸ .push128 nb w hn
  · have hnb : nb = 0 := by
      by_contra hne
      simp [hne, hop] at h
      split at h <;> cases h
    subst hnb
    interval_cases op <;> interval_cases var <;> interval_cases tr <;> simp [decodeNamed, formOfTr] at h hop <;> subst h
    · exact .nop w
    · exact .init32 w
    · exact .init128 w
    · exact .result32 w
    · exact .result128 .full w
    · exact .result128 .first8 w
    · exact .result128 .first4 w
    · exact .rdh32 w
    · exact .rdh128 w
    · exact .rdc32 w
    · exact .rdc128 w
    · exact .wrh32 w
    · exact .wrh128 w
    · exact .wrc32 w
    · exact .wrc128 w

end Sys2Proof
end

