-- ==== Sys2Proof/Laws/State.lean ====
section
/-!
SUPPORT. What each shared operation does to each field of the state: one lemma a field, so that no later proof unfolds an update.
-/

namespace Sys2Proof.Machine

variable (s : State) (b : Block) (st : Status) (d : Payload) (e : CommandError) (r : Block → Block × Response) (a : HostAction)
  (n w : Nat)

@[simp] theorem respond_fst : (respond st d b).1 = b := rfl
@[simp] theorem respond_snd : (respond st d b).2 = ⟨st, d⟩ := rfl

@[simp] theorem raise_fst : (raise e b).1 = b := rfl
@[simp] theorem raise_snd : (raise e b).2 = ⟨e.status, 0⟩ := rfl

@[simp] theorem transact_bank32 : (transact r s).bank32 = (r s.toBlock).1.bank32 := rfl
@[simp] theorem transact_bank128 : (transact r s).bank128 = (r s.toBlock).1.bank128 := rfl
@[simp] theorem transact_presented : (transact r s).presented = s.presented := rfl
@[simp] theorem transact_responses : (transact r s).responses = s.responses ++ [(r s.toBlock).2] := rfl

/-- Taking an error: one more response, and nothing else. -/
theorem transact_raise : transact (raise e) s = { s with responses := s.responses ++ [⟨e.status, 0⟩] } := rfl

@[simp] theorem resetEvent_bank32 : (resetEvent s).bank32 = Bank32.reset := rfl
@[simp] theorem resetEvent_bank128 : (resetEvent s).bank128 = Bank128.reset := rfl
@[simp] theorem resetEvent_presented : (resetEvent s).presented = none := rfl
@[simp] theorem resetEvent_responses : (resetEvent s).responses = [] := rfl

@[simp] theorem present_bank32 : (present a s).bank32 = s.bank32 := rfl
@[simp] theorem present_bank128 : (present a s).bank128 = s.bank128 := rfl
@[simp] theorem present_presented : (present a s).presented = some a := rfl
@[simp] theorem present_responses : (present a s).responses = s.responses := rfl

@[simp] theorem withFetchWord_bank32 : (s.withFetchWord n w).bank32 = s.bank32 := rfl
@[simp] theorem withFetchWord_bank128 : (s.withFetchWord n w).bank128 = s.bank128 := rfl
@[simp] theorem withFetchWord_presented :
    (s.withFetchWord n w).presented = some (.command (commandOfBits n w)) := rfl
@[simp] theorem withFetchWord_responses : (s.withFetchWord n w).responses = s.responses := rfl

@[simp] theorem reset_bank32 : State.reset.bank32 = Bank32.reset := rfl
@[simp] theorem reset_bank128 : State.reset.bank128 = Bank128.reset := rfl
@[simp] theorem reset_presented : State.reset.presented = none := rfl
@[simp] theorem reset_responses : State.reset.responses = [] := rfl

@[simp] theorem start32_h (seed : Word32) : (Bank32.start seed).h = seed := rfl
@[simp] theorem start32_cnt (seed : Word32) : (Bank32.start seed).cnt = 0 := rfl
@[simp] theorem start32_buf (seed : Word32) : (Bank32.start seed).buf = Vector.replicate 3 0 := rfl

@[simp] theorem start128_h1 (seed : Word32) : (Bank128.start seed).h1 = seed.setWidth 64 := rfl
@[simp] theorem start128_h2 (seed : Word32) : (Bank128.start seed).h2 = seed.setWidth 64 := rfl
@[simp] theorem start128_cnt (seed : Word32) : (Bank128.start seed).cnt = 0 := rfl
@[simp] theorem start128_buf (seed : Word32) : (Bank128.start seed).buf = Vector.replicate 15 0 := rfl

end Sys2Proof.Machine
end

