-- ==== Sys2Proof/Laws/Exec.lean ====
section
/-!
SUPPORT. What executing a command can do, said once: the effect of a command on the two banks, the answer it gives, and the fact that it is
nothing more than these. Later proofs cite `exec_eq` and do not unfold the meanings.
-/

namespace Sys2Proof.Machine

open Sys2Proof

/-- Bank 32 after WRC32. -/
def loadCarry32 (w : Word32) (b : Bank32) : Bank32 :=
  match unpack32 w with
  | some carry => { b with cnt := carry.1, buf := carry.2 }
  | none => b

/-- Bank 128 after WRC128. -/
def loadCarry128 (w : Payload) (b : Bank128) : Bank128 :=
  match unpack128 w with
  | some carry => { b with cnt := carry.1, buf := carry.2 }
  | none => b

/-- What a command answers that succeeds with a value if a check holds, and with an error if it does not. -/
def checked (holds : Bool) (value : Payload) (otherwise : Status) : Response :=
  if holds then ⟨.ok, value⟩ else ⟨otherwise, 0⟩

/-- Bank 32 after a command, as a function of bank 32 alone. -/
def bank32After (i : Instr) (b : Bank32) : Bank32 :=
  match i with
  | .init32 seed => Bank32.start seed
  | .push32 bytes => pushBytes32 mmh3c b bytes
  | .wrh32 h => { b with h := h }
  | .wrc32 w => loadCarry32 w b
  | .nop | .result32 _ | .rdh32 | .rdc32 => b
  | .init128 _ | .push128 _ | .result128 _ _ | .rdh128 | .rdc128 | .wrh128 _ _ | .wrc128 _ => b

/-- Bank 128 after a command, as a function of bank 128 alone. -/
def bank128After (i : Instr) (b : Bank128) : Bank128 :=
  match i with
  | .init128 seed => Bank128.start seed
  | .push128 bytes => pushBytes128 mmh3c b bytes
  | .wrh128 h1 h2 => { b with h1 := h1, h2 := h2 }
  | .wrc128 w => loadCarry128 w b
  | .nop | .result128 _ _ | .rdh128 | .rdc128 => b
  | .init32 _ | .push32 _ | .result32 _ | .rdh32 | .rdc32 | .wrh32 _ | .wrc32 _ => b

/-- What a command answers, as a function of the two banks. -/
def answerOf (i : Instr) (b : Bank32) (c : Bank128) : Response :=
  match i with
  | .result32 total => checked (lengthFits32 total b.cnt) ((b.digest mmh3c total).setWidth 128) .invalidLength
  | .rdh32 => ⟨.ok, b.h.setWidth 128⟩
  | .rdc32 => ⟨.ok, (pack32 b.cnt b.buf).setWidth 128⟩
  | .wrc32 w => checked (unpack32 w).isSome 0 .invalidCarry
  | .result128 form total =>
    checked (lengthFits128 total c.cnt) (digestBytes (c.digest mmh3c total).1 (c.digest mmh3c total).2 form) .invalidLength
  | .rdh128 => ⟨.ok, pair c.h1 c.h2⟩
  | .rdc128 => ⟨.ok, pack128 c.cnt c.buf⟩
  | .wrc128 w => checked (unpack128 w).isSome 0 .invalidCarry
  | .nop | .init32 _ | .push32 _ | .wrh32 _ | .init128 _ | .push128 _ | .wrh128 _ _ => ⟨.ok, 0⟩

/-- The state after a command: both banks, and one more response. -/
def after (i : Instr) (s : State) : State :=
  { s with bank32 := bank32After i s.bank32, bank128 := bank128After i s.bank128,
           responses := s.responses ++ [answerOf i s.bank32 s.bank128] }

theorem execResult32_eq (total : Word32) (s : State) : execResult32 total s =
    .next { s with responses := s.responses ++
      [checked (lengthFits32 total s.bank32.cnt) ((s.bank32.digest mmh3c total).setWidth 128) .invalidLength] } := by
  unfold execResult32 transact
  simp only
  cases lengthFits32 total s.bank32.cnt <;> rfl

theorem execResult128_eq (form : DigestForm) (total : Word32) (s : State) : execResult128 form total s =
    .next { s with responses := s.responses ++
      [checked (lengthFits128 total s.bank128.cnt)
        (digestBytes (s.bank128.digest mmh3c total).1 (s.bank128.digest mmh3c total).2 form) .invalidLength] } := by
  unfold execResult128 transact
  simp only
  cases lengthFits128 total s.bank128.cnt <;> rfl

theorem execWrc32_eq (w : Word32) (s : State) : execWrc32 w s =
    .next { s with bank32 := loadCarry32 w s.bank32,
                   responses := s.responses ++ [checked (unpack32 w).isSome 0 .invalidCarry] } := by
  unfold execWrc32 loadCarry32 transact
  simp only
  cases unpack32 w <;> rfl

theorem execWrc128_eq (w : Payload) (s : State) : execWrc128 w s =
    .next { s with bank128 := loadCarry128 w s.bank128,
                   responses := s.responses ++ [checked (unpack128 w).isSome 0 .invalidCarry] } := by
  unfold execWrc128 loadCarry128 transact
  simp only
  cases unpack128 w <;> rfl

/-- Every command goes on, and does no more than `after` says. -/
theorem exec_eq (i : Instr) (s : State) : exec i s = .next (after i s) := by
  cases i with
  | result32 total => exact execResult32_eq total s
  | result128 form total => exact execResult128_eq form total s
  | wrc32 w => exact execWrc32_eq w s
  | wrc128 w => exact execWrc128_eq w s
  | _ => rfl

@[simp] theorem after_bank32 (i : Instr) (s : State) : (after i s).bank32 = bank32After i s.bank32 := rfl
@[simp] theorem after_bank128 (i : Instr) (s : State) : (after i s).bank128 = bank128After i s.bank128 := rfl
@[simp] theorem after_presented (i : Instr) (s : State) : (after i s).presented = s.presented := rfl
@[simp] theorem after_responses (i : Instr) (s : State) :
    (after i s).responses = s.responses ++ [answerOf i s.bank32 s.bank128] := rfl

/-- The command rule applies when the word decodes. -/
theorem runCommand_of_ok {c : Command} {i : Instr} (h : decode c = .ok i) (s : State) : runCommand c s = .next (after i s) := by
  simp [runCommand, h, exec_eq]

/-- An illegal word is answered and nothing else happens. -/
theorem runCommand_of_illegal {c : Command} {why : Illegal} (h : decode c = .illegal why) (s : State) :
    runCommand c s = .next (transact (raise .illegalCommand) s) := by
  simp [runCommand, h]

/-- What a command transaction can do: the command rule of the decoded command, or the error answer. -/
theorem runCommand_cases (c : Command) (s : State) :
    (∃ i, decode c = .ok i ∧ runCommand c s = .next (after i s)) ∨
    (∃ why, decode c = .illegal why ∧ runCommand c s = .next (transact (raise .illegalCommand) s)) := by
  cases h : decode c with
  | ok i => exact .inl ⟨i, rfl, runCommand_of_ok h s⟩
  | illegal why => exact .inr ⟨why, rfl, runCommand_of_illegal h s⟩

/-- What a step can do. -/
theorem step_cases {s t : State} (h : step s = .next t) :
    (s.presented = none ∧ t = s) ∨ (s.presented = some .reset ∧ t = State.reset) ∨
    (∃ c, s.presented = some (.command c) ∧ runCommand c { s with presented := none } = .next t) := by
  unfold step at h
  split at h
  · exact .inl ⟨‹_›, by cases h; rfl⟩
  · exact .inr (.inl ⟨‹_›, by cases h; rfl⟩)
  · exact .inr (.inr ⟨_, ‹_›, h⟩)

@[simp] theorem andThen_next (s : State) (f : State → Host.Outcome State Fault Refusal) : andThen (.next s) f = f s := rfl

@[simp] theorem execList_nil (s : State) : execList [] s = .next s := rfl

@[simp] theorem execList_cons (i : Instr) (is : List Instr) (s : State) : execList (i :: is) s = execList is (after i s) := by
  simp [execList, exec_eq]

/-- A run of commands is the fold of their effects. -/
theorem execList_eq (is : List Instr) (s : State) : execList is s = .next (is.foldl (fun t i => after i t) s) := by
  induction is generalizing s with
  | nil => rfl
  | cons i is ih => simp [ih]

/-- What the run of a pseudo-command asks after a command is whether that command was answered with `INVALID_CARRY`. -/
@[simp] theorem answeredInvalidCarry_after (i : Instr) (s : State) :
    answeredInvalidCarry (after i s) = ((answerOf i s.bank32 s.bank128).status == .invalidCarry) := by
  simp [answeredInvalidCarry]

@[simp] theorem runPseudo_nil (s : State) : runPseudo [] s = .next s := rfl

/-- One command of a pseudo-command: it is run, and the rest only if it was not answered with `INVALID_CARRY`. -/
@[simp] theorem runPseudo_cons (i : Instr) (is : List Instr) (s : State) : runPseudo (i :: is) s =
    if (answerOf i s.bank32 s.bank128).status == .invalidCarry then .next (after i s) else runPseudo is (after i s) := by
  simp [runPseudo, exec_eq]

end Sys2Proof.Machine
end

