-- ==== Sys2Proof/Laws/Operands.lean ====
section
/-!
SUPPORT. What packing and unpacking a carry answers, and the bytes of the images.
-/

namespace Sys2Proof.Machine

open Sys2Proof

theorem unpack32_of_lt (w : Word32) (h : (byteAt w 0).toNat < 4) :
    unpack32 w = some (⟨(byteAt w 0).toNat, h⟩, carryBytes32 w (byteAt w 0).toNat) := by
  simp [unpack32, h]

theorem unpack32_of_ge (w : Word32) (h : ¬ (byteAt w 0).toNat < 4) : unpack32 w = none := by
  simp [unpack32, h]

/-- An image that loads has its marker in range, and loads the bytes of that marker. -/
theorem unpack32_eq_some {w : Word32} {carry : Fin 4 × Vector Byte 3} (h : unpack32 w = some carry) :
    carry.1.val = (byteAt w 0).toNat ∧ carry.2 = carryBytes32 w carry.1.val := by
  by_cases hm : (byteAt w 0).toNat < 4
  · rw [unpack32_of_lt w hm] at h
    cases h
    exact ⟨rfl, rfl⟩
  · rw [unpack32_of_ge w hm] at h
    cases h

theorem unpack128_of_lt (w : Payload) (h : (byteAt w 8).toNat < 16) :
    unpack128 w = some (⟨(byteAt w 8).toNat, h⟩, carryBytes128 w (byteAt w 8).toNat) := by
  simp [unpack128, h]

theorem unpack128_of_ge (w : Payload) (h : ¬ (byteAt w 8).toNat < 16) : unpack128 w = none := by
  simp [unpack128, h]

/-- An image that loads has its marker in range, and loads the bytes of that marker. -/
theorem unpack128_eq_some {w : Payload} {carry : Fin 16 × Vector Byte 15} (h : unpack128 w = some carry) :
    carry.1.val = (byteAt w 8).toNat ∧ carry.2 = carryBytes128 w carry.1.val := by
  by_cases hm : (byteAt w 8).toNat < 16
  · rw [unpack128_of_lt w hm] at h
    cases h
    exact ⟨rfl, rfl⟩
  · rw [unpack128_of_ge w hm] at h
    cases h

@[simp] theorem getElem_carryBytes32 (w : Word32) (m i : Nat) (h : i < 3) :
    (carryBytes32 w m)[i] = if i < m then byteAt w (4 - m + i) else 0 := by
  simp [carryBytes32]

@[simp] theorem getElem_carryBytes128 (w : Payload) (m i : Nat) (h : i < 15) :
    (carryBytes128 w m)[i] =
      if m ≤ 8 then (if i < m then byteAt w (8 - m + i) else 0)
      else if i < 8 then byteAt w i
      else if i < m then byteAt w (8 + (16 - m + (i - 8)))
      else 0 := by
  simp [carryBytes128]

/-- The bytes of a value shifted up by whole bytes. -/
theorem byteAt_shiftLeft {w : Nat} (v : BitVec w) (k i : Nat) (h : 8 * i + 8 ≤ w) :
    byteAt (v <<< (8 * k)) i = if i < k then 0 else byteAt v (i - k) := by
  apply BitVec.eq_of_getLsbD_eq
  intro j hj
  rw [getLsbD_byteAt, BitVec.getLsbD_shiftLeft]
  by_cases hik : i < k
  · simp [hik, show 8 * i + j < 8 * k by omega]
  · rw [if_neg hik, getLsbD_byteAt]
    have : 8 * i + j - 8 * k = 8 * (i - k) + j := by omega
    simp [this, hj, show 8 * i + j < w by omega, show ¬ 8 * i + j < 8 * k by omega]

/-- The bytes of an `or`. -/
theorem byteAt_or {w : Nat} (v v' : BitVec w) (i : Nat) : byteAt (v ||| v') i = byteAt v i ||| byteAt v' i := by
  apply BitVec.eq_of_getLsbD_eq
  intro j hj
  simp only [getLsbD_byteAt, BitVec.getLsbD_or]
  simp [hj]

/-- The bytes of a pair of 64-bit words. -/
theorem byteAt_append (hi lo : Word64) (i : Nat) :
    byteAt (hi ++ lo : BitVec (64 + 64)) i = if i < 8 then byteAt lo i else byteAt hi (i - 8) := by
  apply BitVec.eq_of_getLsbD_eq
  intro j hj
  rw [getLsbD_byteAt, BitVec.getLsbD_append]
  by_cases h : i < 8
  · rw [if_pos h, getLsbD_byteAt]
    simp [hj, show 8 * i + j < 64 by omega]
  · rw [if_neg h, getLsbD_byteAt]
    simp [hj, show ¬ 8 * i + j < 64 by omega, show 8 * i + j - 64 = 8 * (i - 8) + j by omega]

/-- A number below 256 is its own low byte, and its other bytes are 0. -/
theorem byteAt_ofNat (w n i : Nat) (hn : n < 256) (h : 8 * i + 8 ≤ w) :
    byteAt (BitVec.ofNat w n) i = if i = 0 then BitVec.ofNat 8 n else 0 := by
  apply BitVec.eq_of_getLsbD_eq
  intro j hj
  rw [getLsbD_byteAt, BitVec.getLsbD_ofNat]
  by_cases hi : i = 0
  · subst hi
    rw [if_pos rfl, BitVec.getLsbD_ofNat]
    simp [hj, show j < w by omega]
  · have hb : n.testBit (8 * i + j) = false :=
      Nat.testBit_lt_two_pow (Nat.lt_of_lt_of_le hn (Nat.pow_le_pow_right (n := 2) (i := 8) (by decide) (by omega)))
    simp [hi, hb]

end Sys2Proof.Machine
end

