-- ==== Sys2Proof/Laws/PerInstr.lean ====
section
/-!
SUPPORT. The per-instruction family `EncodesInRow`: the encoding of a well-formed command lies in its own row of opcode_table.json
(30_encoding.md R68).
-/

namespace Sys2Proof.Laws.EncodesInRow

open Sys2Proof

/-- The mask of the command's row: which bits of the word the row fixes (R68). -/
def rowMask : Instr → Word32
  | .nop => 0xFFFFFFFF
  | .init32 _ => 0xFFFFFFFF
  | .push32 _ => 0xFFFFE0FF
  | .result32 _ => 0xFFFFFFFF
  | .rdh32 => 0xFFFFFFFF
  | .rdc32 => 0xFFFFFFFF
  | .wrh32 _ => 0xFFFFFFFF
  | .wrc32 _ => 0xFFFFFFFF
  | .init128 _ => 0xFFFFFFFF
  | .push128 _ => 0xFFFFE0FF
  | .result128 _ _ => 0xFFFFFF3F
  | .rdh128 => 0xFFFFFFFF
  | .rdc128 => 0xFFFFFFFF
  | .wrh128 _ _ => 0xFFFFFFFF
  | .wrc128 _ => 0xFFFFFFFF

/-- The match of the command's row: the values of the fixed bits (R68). -/
def rowMatch : Instr → Word32
  | .nop => 0x00000000
  | .init32 _ => 0x00000001
  | .push32 _ => 0x00000002
  | .result32 _ => 0x00000003
  | .rdh32 => 0x00000004
  | .rdc32 => 0x00000005
  | .wrh32 _ => 0x00000006
  | .wrc32 _ => 0x00000007
  | .init128 _ => 0x00000011
  | .push128 _ => 0x00000012
  | .result128 _ _ => 0x00000013
  | .rdh128 => 0x00000014
  | .rdc128 => 0x00000015
  | .wrh128 _ _ => 0x00000016
  | .wrc128 _ => 0x00000017

/-- A well-formed command's word has its row's fixed bits. -/
def Statement (i : Instr) : Prop := i.wellFormed = true → (encode i).cmd &&& rowMask i = rowMatch i

theorem nop : Statement .nop := fun _ => by decide
theorem init32 (seed : Word32) : Statement (.init32 seed) := fun _ => by simp only [encode, rowMask, rowMatch]; decide

theorem push32 (bytes : List Byte) : Statement (.push32 bytes) := fun h => by
  have hn : bytes.length ≤ 4 := by simpa [Instr.wellFormed, Config.block32] using h
  simp only [encode, rowMask, rowMatch]
  generalize bytes.length = n at hn
  interval_cases n <;> decide

theorem result32 (total : Word32) : Statement (.result32 total) := fun _ => by simp only [encode, rowMask, rowMatch]; decide
theorem rdh32 : Statement .rdh32 := fun _ => by decide
theorem rdc32 : Statement .rdc32 := fun _ => by decide
theorem wrh32 (h : Word32) : Statement (.wrh32 h) := fun _ => by simp only [encode, rowMask, rowMatch]; decide
theorem wrc32 (w : Word32) : Statement (.wrc32 w) := fun _ => by simp only [encode, rowMask, rowMatch]; decide
theorem init128 (seed : Word32) : Statement (.init128 seed) := fun _ => by simp only [encode, rowMask, rowMatch]; decide

theorem push128 (bytes : List Byte) : Statement (.push128 bytes) := fun h => by
  have hn : bytes.length ≤ 16 := by simpa [Instr.wellFormed, Config.block128] using h
  simp only [encode, rowMask, rowMatch]
  generalize bytes.length = n at hn
  interval_cases n <;> decide

theorem result128 (form : DigestForm) (total : Word32) : Statement (.result128 form total) := fun _ => by
  simp only [encode, rowMask, rowMatch]
  cases form <;> decide

theorem rdh128 : Statement .rdh128 := fun _ => by decide
theorem rdc128 : Statement .rdc128 := fun _ => by decide
theorem wrh128 (h1 h2 : Word64) : Statement (.wrh128 h1 h2) := fun _ => by simp only [encode, rowMask, rowMatch]; decide
theorem wrc128 (w : Payload) : Statement (.wrc128 w) := fun _ => by simp only [encode, rowMask, rowMatch]; decide

end Sys2Proof.Laws.EncodesInRow
end

