-- ==== Sys2Proof/Machine/Assembler.lean ====
section
/-!
DEFINITION. The written form of a command (30_encoding.md R72). Its command word and payload are those of `encode` in Decode.lean.
-/

namespace Sys2Proof.Machine

open Sys2Proof

/-- The mnemonic, with the suffix of a truncated RESULT128 (30_encoding.md R64, R68). -/
def mnemonic : Instr → String
  | .nop => "NOP"
  | .init32 _ => "INIT32"
  | .push32 _ => "PUSH32"
  | .result32 _ => "RESULT32"
  | .rdh32 => "RDH32"
  | .rdc32 => "RDC32"
  | .wrh32 _ => "WRH32"
  | .wrc32 _ => "WRC32"
  | .init128 _ => "INIT128"
  | .push128 _ => "PUSH128"
  | .result128 .full _ => "RESULT128"
  | .result128 .first8 _ => "RESULT128.64"
  | .result128 .first4 _ => "RESULT128.32"
  | .rdh128 => "RDH128"
  | .rdc128 => "RDC128"
  | .wrh128 _ _ => "WRH128"
  | .wrc128 _ => "WRC128"

/-- The hexadecimal digit of a number below 16, in capitals as the examples of R72 have them. -/
def hexDigit (n : Nat) : Char := Char.ofNat (if n < 10 then 48 + n else 55 + n)

/-- The last `digits` hexadecimal digits of a number, the highest first. -/
def hexText (digits v : Nat) : String :=
  String.ofList ((List.range digits).reverse.map fun i => hexDigit (v / 16 ^ i % 16))

/-- A number, `0x` and hexadecimal digits (R72). -/
def numberText {w : Nat} (v : BitVec w) : String := "0x" ++ hexText (w / 4) v.toNat

/-- A byte list of two-digit numbers, separated by spaces, in stream order (R72); each byte with the space before it. -/
def bytesText : List Byte → String
  | [] => ""
  | b :: bs => " " ++ hexText 2 b.toNat ++ bytesText bs

/-- The operands as R72 writes them. -/
def operandsText : Instr → String
  | .nop | .rdh32 | .rdc32 | .rdh128 | .rdc128 => ""
  | .init32 v | .result32 v | .wrh32 v | .wrc32 v | .init128 v | .result128 _ v => " " ++ numberText v
  | .push32 bytes | .push128 bytes => bytesText bytes
  | .wrh128 h1 h2 => " " ++ numberText h1 ++ ", " ++ numberText h2
  | .wrc128 w => " " ++ numberText (w.extractLsb' 0 64) ++ ", " ++ numberText (w.extractLsb' 64 64)

/-- A command in the syntax of R72. -/
def assembly (i : Instr) : String := mnemonic i ++ operandsText i

end Sys2Proof.Machine
end

