-- ==== Sys2Proof/Tests/Slice0.lean ====
section
/-!
SUPPORT. Tests on fixed values. Expected values come from spec/95_test_vectors.md ("TV" and a section, or a program P1 to P5 of its section 4)
or are written out from the encoding of 30_encoding.md. The theorems `witness_...` show states and operands that meet the
hypotheses of the obligation they name.
-/

namespace Sys2Proof.Tests

open Sys2Proof Sys2Proof.Machine Sys2Proof.Claims

/-- The reset state with this lane and these carry bytes (at most 3) in bank 32. -/
def in32 (h : Word32) (carry : List Byte) : State :=
  { State.reset with bank32 := { h := h, cnt := Fin.ofNat 4 carry.length, buf := padded 3 carry } }

/-- The reset state with these lanes and these carry bytes (at most 15) in bank 128. -/
def in128 (h1 h2 : Word64) (carry : List Byte) : State :=
  { State.reset with bank128 := { h1 := h1, h2 := h2, cnt := Fin.ofNat 16 carry.length, buf := padded 15 carry } }

/-- The bytes `a`, `a + 1`, ..., `n` of them. -/
def upFrom (a n : Nat) : List Byte := (List.range n).map fun i => BitVec.ofNat 8 (a + i)

/-- `s` with one more response. -/
def answered (s : State) (status : Status) (rdata : Payload) : State :=
  { s with responses := s.responses ++ [⟨status, rdata⟩] }

/-- The next state, if there is one. -/
def nextOf : Host.Outcome State Fault Refusal → Option State
  | .next s => some s
  | .fault _ => none
  | .refused _ => none

theorem eq_next_of_nextOf {o : Host.Outcome State Fault Refusal} {t : State} (h : nextOf o = some t) : o = .next t := by
  cases o <;> simp_all [nextOf]

/-- Some next state, when `nextOf` finds one. -/
theorem exists_next_of_nextOf {o : Host.Outcome State Fault Refusal} (h : (nextOf o).isSome = true) : ∃ t, o = .next t := by
  cases o <;> simp_all [nextOf]

/-! ### Well-formedness: what the checks refuse, and the largest beat they accept -/

theorem test_wellFormed_refuses_push32_of_5 : Instr.wellFormed (.push32 (upFrom 0 5)) = false := by decide
theorem test_wellFormed_refuses_push128_of_17 : Instr.wellFormed (.push128 (upFrom 0 17)) = false := by decide
theorem test_wellFormed_accepts_full_beats :
    Instr.wellFormed (.push32 (upFrom 0 4)) = true ∧ Instr.wellFormed (.push128 (upFrom 0 16)) = true := by decide

/-! ### Decoding: one word for each constructor, written out as RSV NB TR VAR OP (30_encoding.md R60, R68) -/

theorem test_decode_nop : decode ⟨0b0000000000000000000_00000_00_00_0000#32, 0xFF⟩ = .ok .nop := by decide
theorem test_decode_init32 :
    decode ⟨0b0000000000000000000_00000_00_00_0001#32, 0xDEAD00000005⟩ = .ok (.init32 0x00000005) := by decide
theorem test_decode_push32 :
    decode ⟨0b0000000000000000000_00011_00_00_0010#32, 0xFF747365⟩ = .ok (.push32 [0x65, 0x73, 0x74]) := by decide
theorem test_decode_result32 :
    decode ⟨0b0000000000000000000_00000_00_00_0011#32, 0x180000003⟩ = .ok (.result32 0x80000003) := by decide
theorem test_decode_rdh32 : decode ⟨0b0000000000000000000_00000_00_00_0100#32, 1⟩ = .ok .rdh32 := by decide
theorem test_decode_rdc32 : decode ⟨0b0000000000000000000_00000_00_00_0101#32, 1⟩ = .ok .rdc32 := by decide
theorem test_decode_wrh32 :
    decode ⟨0b0000000000000000000_00000_00_00_0110#32, 0x912345678⟩ = .ok (.wrh32 0x12345678) := by decide
theorem test_decode_wrc32 :
    decode ⟨0b0000000000000000000_00000_00_00_0111#32, 0x9AABBCC03⟩ = .ok (.wrc32 0xAABBCC03) := by decide
theorem test_decode_init128 :
    decode ⟨0b0000000000000000000_00000_00_01_0001#32, 0xABCDFFFFFFFF⟩ = .ok (.init128 0xFFFFFFFF) := by decide
theorem test_decode_push128 :
    decode ⟨0b0000000000000000000_10000_00_01_0010#32, 0x0F0E0D0C0B0A09080706050403020100⟩ =
      .ok (.push128 (upFrom 0 16)) := by decide
theorem test_decode_result128_forms :
    decode ⟨0b0000000000000000000_00000_00_01_0011#32, 0x900000011⟩ = .ok (.result128 .full 0x11) ∧
    decode ⟨0b0000000000000000000_00000_01_01_0011#32, 0x11⟩ = .ok (.result128 .first8 0x11) ∧
    decode ⟨0b0000000000000000000_00000_10_01_0011#32, 0x11⟩ = .ok (.result128 .first4 0x11) := by decide
theorem test_decode_rdh128 : decode ⟨0b0000000000000000000_00000_00_01_0100#32, 1⟩ = .ok .rdh128 := by decide
theorem test_decode_rdc128 : decode ⟨0b0000000000000000000_00000_00_01_0101#32, 1⟩ = .ok .rdc128 := by decide
theorem test_decode_wrh128 :
    decode ⟨0b0000000000000000000_00000_00_01_0110#32, 0x00000000000000020000000000000001⟩ = .ok (.wrh128 1 2) := by decide
theorem test_decode_wrc128 :
    decode ⟨0b0000000000000000000_00000_00_01_0111#32, 0x0E0D0C0B0A09080F0706050403020100⟩ =
      .ok (.wrc128 0x0E0D0C0B0A09080F0706050403020100) := by decide

/-- TV 3.8, the illegal examples, each with the case it is rejected by. -/
theorem test_decode_illegal_examples :
    [0x00000008, 0x0000000F, 0x00000010, 0x00000040, 0x00000100, 0x00000021, 0x00000031].map (fun c => decode ⟨c, 0⟩) =
      [.illegal .reservedOp, .illegal .reservedOp, .illegal .nopField, .illegal .nopField, .illegal .nopField,
       .illegal .reservedVar, .illegal .reservedVar] := by decide
theorem test_decode_illegal_more_examples :
    [0x00000043, 0x00000051, 0x000000D3, 0x00000101, 0x00000105, 0x00000113, 0x00000502, 0x00001112, 0x00002000,
      0xFFFFFFFF].map (fun c => decode ⟨c, 0⟩) =
      [.illegal .trUnused, .illegal .trUnused, .illegal .reservedTr, .illegal .nbUnused, .illegal .nbUnused,
       .illegal .nbUnused, .illegal .nbTooLarge, .illegal .nbTooLarge, .illegal .reservedBits, .illegal .reservedBits] := by
  decide

/-- The host's numbering: the payload begins at bit 32. -/
theorem test_decodeTableWord :
    decodeTableWord 32 0x00000202 = some (.push32 [0, 0]) ∧ decodeTableWord 160 0xCCBB00000202 = some (.push32 [0xBB, 0xCC]) ∧
    decodeTableWord 32 0x000000D3 = none := by decide
theorem test_encode_words :
    (encode (.push128 (upFrom 0 16))).cmd = 0x00001012 ∧ encode (.result128 .first4 17) = ⟨0x00000093, 17⟩ := by decide

/-! ### One command each: bank 32 (TV 3.6, P5) -/

theorem test_nop : nextOf (runCommand ⟨0x00000000, 0xFF⟩ (in32 7 [1])) =
      some (answered (in32 7 [1]) .ok 0) := by decide
theorem test_init32 :
    nextOf (runCommand ⟨0x00000001, 0xDEAD00000005⟩ (in32 7 [1, 2])) =
      some (answered (in32 5 []) .ok 0) := by decide
theorem test_push32_block_and_carry :
    nextOf (runCommand ⟨0x00000402, 0x11FFEEDD⟩ (in32 0 [0xAA, 0xBB, 0xCC])) =
      some (answered (in32 0x979A02C2 [0xEE, 0xFF, 0x11]) .ok 0) := by decide
theorem test_push32_fills_the_block :
    nextOf (runCommand ⟨0x00000102, 0x44⟩ (in32 0x12345678 [0x33, 0x22, 0x11])) =
      some (answered (in32 0x66330C43 []) .ok 0) := by
  decide
theorem test_result32 :
    nextOf (runCommand ⟨0x00000003, 0x7⟩ (in32 0x979A02C2 [0xEE, 0xFF, 0x11])) =
      some (answered (in32 0x979A02C2 [0xEE, 0xFF, 0x11]) .ok 0x951F0E69) := by decide
theorem test_result32_wrong_low_bits :
    nextOf (runCommand ⟨0x00000003, 0x4⟩ (in32 0x979A02C2 [0xEE, 0xFF, 0x11])) =
      some (answered (in32 0x979A02C2 [0xEE, 0xFF, 0x11]) .invalidLength 0) := by decide
theorem test_rdh32 :
    nextOf (runCommand ⟨0x00000004, 0⟩ (in32 0x979A02C2 [0xEE])) =
      some (answered (in32 0x979A02C2 [0xEE]) .ok 0x979A02C2) := by decide
theorem test_rdc32 :
    nextOf (runCommand ⟨0x00000005, 0⟩ (in32 1 [0xEE, 0xFF, 0x11])) =
      some (answered (in32 1 [0xEE, 0xFF, 0x11]) .ok 0x11FFEE03) := by decide
theorem test_wrh32 :
    nextOf (runCommand ⟨0x00000006, 0x12345678⟩ (in32 1 [0xEE, 0xFF, 0x11])) =
      some (answered (in32 0x12345678 [0xEE, 0xFF, 0x11]) .ok 0) := by decide
theorem test_wrc32_drops_stale_bytes :
    nextOf (runCommand ⟨0x00000007, 0xAABBCC01⟩ (in32 9 [1, 2, 3])) =
      some (answered (in32 9 [0xAA]) .ok 0) := by decide
theorem test_wrc32_bad_marker :
    nextOf (runCommand ⟨0x00000007, 0x00000004⟩ (in32 9 [1, 2, 3])) =
      some (answered (in32 9 [1, 2, 3]) .invalidCarry 0) := by decide

/-! ### One command each: bank 128 (TV 3.5, 3.7) -/

theorem test_init128 :
    nextOf (runCommand ⟨0x00000011, 0xABCDFFFFFFFF⟩ (in128 1 2 [3])) =
      some (answered (in128 0x00000000FFFFFFFF 0x00000000FFFFFFFF []) .ok 0) := by decide
theorem test_push128_block_and_carry :
    nextOf (runCommand ⟨0x00000212, 0x100F⟩ (in128 0 0 (upFrom 0 15))) =
      some (answered (in128 0xDCAC505EA5C458DF 0x72927C4BE244042D [0x10]) .ok 0) := by decide
theorem test_push128_mixes_into_the_lanes :
    nextOf (runCommand ⟨0x00000112, 0xF⟩ (in128 1 2 (upFrom 0 15))) =
      some (answered (in128 0xDCAC505ECDC458E9 0x72927C51AA44045F []) .ok 0) := by decide
theorem test_result128_forms :
    let s := in128 0xDCAC505EA5C458DF 0x72927C4BE244042D [0x10]
    nextOf (runCommand ⟨0x00000013, 0x11⟩ s) =
      some (answered s .ok 0xC15F026B9EDAA8245C76F40F9FE7C20E) ∧
    nextOf (runCommand ⟨0x00000053, 0x11⟩ s) =
      some (answered s .ok 0x5C76F40F9FE7C20E) ∧
    nextOf (runCommand ⟨0x00000093, 0x11⟩ s) =
      some (answered s .ok 0x9FE7C20E) := by decide
theorem test_result128_wrong_low_bits :
    nextOf (runCommand ⟨0x00000013, 0x10⟩ (in128 1 2 [0x10])) =
      some (answered (in128 1 2 [0x10]) .invalidLength 0) := by decide
theorem test_rdh128 :
    nextOf (runCommand ⟨0x00000014, 0⟩ (in128 1 2 [0x10])) =
      some (answered (in128 1 2 [0x10]) .ok 0x00000000000000020000000000000001) := by decide
theorem test_rdc128_of_7 :
    nextOf (runCommand ⟨0x00000015, 0⟩ (in128 1 2 (upFrom 0 7))) =
      some (answered (in128 1 2 (upFrom 0 7)) .ok 0x00000000000000070605040302010000) := by decide
theorem test_rdc128_of_15 :
    nextOf (runCommand ⟨0x00000015, 0⟩ (in128 1 2 (upFrom 0 15))) =
      some (answered (in128 1 2 (upFrom 0 15)) .ok 0x0E0D0C0B0A09080F0706050403020100) := by decide
theorem test_wrh128 :
    nextOf (runCommand ⟨0x00000016, 0x00000000000000020000000000000001⟩ (in128 8 9 [0x10])) =
      some (answered (in128 1 2 [0x10]) .ok 0) := by decide
theorem test_wrc128_drops_stale_bytes :
    nextOf (runCommand ⟨0x00000017, 0xAA0908FFFFFFFF0B0706050403020100⟩ (in128 1 2 [0x10])) =
      some (answered (in128 1 2 (upFrom 0 10 ++ [0xAA])) .ok 0) := by decide
theorem test_wrc128_bad_marker :
    nextOf (runCommand ⟨0x00000017, 0x99AABBCCDDEEFF101122334455667788⟩ (in128 1 2 [0x10])) =
      some (answered (in128 1 2 [0x10]) .invalidCarry 0) := by decide

/-! ### Errors, the step, the references and the written form -/

theorem test_illegal_word : nextOf (runCommand ⟨0x00000502, 0x0403020100⟩ (in32 1 [2])) =
      some (answered (in32 1 [2]) .illegalCommand 0) := by decide
theorem test_step_of_a_presented_word :
    nextOf (step (State.reset.withFetchWord 160 0xDEAD0000000500000001)) =
      some (answered (in32 5 []) .ok 0) := by decide
theorem test_step_reset_event :
    nextOf (step (present .reset { in128 1 2 [3] with responses := [⟨.ok, 0⟩] })) = some State.reset := by decide
/-- Program P1: "test" as 1 + 3 bytes, with a reset before it; the stream stands outside the state. -/
theorem test_driven :
    (nextOf (driven [.command ⟨0x00000006, 7⟩, .reset, .command ⟨0x00000001, 0⟩, .command ⟨0x00000102, 0x74⟩,
      .command ⟨0x00000302, 0x747365⟩, .command ⟨0x00000003, 4⟩] State.reset)).map (·.responses) =
      some [⟨.ok, 0⟩, ⟨.ok, 0⟩, ⟨.ok, 0⟩, ⟨.ok, 0xBA6BD213⟩] := by decide
/-- TV 3.2 and 3.4. -/
theorem test_oneShot :
    oneShot32 mmh3c [0x21, 0x43, 0x65, 0x87] 0 = 0xF55B516B ∧ oneShot32 mmh3c (upFrom 0 11) 0x9747B28C = 0xFF44D2E4 ∧
    oneShot128 mmh3c (upFrom 0 9) 0 = (0xFBB4CB0F6E812D32, 0x78DE751D0200FFB9) ∧
    oneShot128 mmh3c (upFrom 0 17) 0x9747B28C = (0x4BF03E9623D1CA48, 0xCDB46D35C186FEEC) := by decide
theorem test_assembly :
    assembly (.init32 0x9747B28C) = "INIT32 0x9747B28C" ∧ assembly (.push32 [0xAA, 0x0B]) = "PUSH32 AA 0B" ∧
    assembly .rdc128 = "RDC128" := by decide

/-! ### Witnesses: states and operands that meet the hypotheses of the obligations, a clause each, at a boundary of its range -/

theorem witness_DecodeEncodeRoundTrip :
    Instr.wellFormed (.push32 (upFrom 0xB0 4)) = true ∧
      decode (encode (.push32 (upFrom 0xB0 4))) = .ok (.push32 (upFrom 0xB0 4)) ∧
    Instr.wellFormed (.push128 (upFrom 0xB0 16)) = true ∧
      decode (encode (.push128 (upFrom 0xB0 16))) = .ok (.push128 (upFrom 0xB0 16)) := by decide

theorem witness_DecodedCommandHasOneWord :
    decode ⟨0x00000093, 0xFFFFFFFF00000011⟩ = .ok (.result128 .first4 0x11) ∧
    (encode (.result128 .first4 0x11)).cmd = 0x00000093 := by decide

theorem witness_MnemonicsFollowOpcodeTable_push_boundaries :
    decode ⟨0x00000402, 0x04030201⟩ = .ok (.push32 [1, 2, 3, 4]) ∧ decode ⟨0x00000502, 0⟩ = .illegal .nbTooLarge ∧
    decode ⟨0x00000002, 0x04030201⟩ = .ok (.push32 []) ∧ decode ⟨0x00001012, 0⟩ = .ok (.push128 (List.replicate 16 0)) ∧
    decode ⟨0x00001112, 0⟩ = .illegal .nbTooLarge := by decide

theorem witness_OperandsComeFromTheirPayloadBits :
    decode ⟨BitVec.ofNat 32 (0x00000002 + 0x100 * 4), 0xFF04030201⟩ = .ok (.push32 (payloadBytes 0xFF04030201 4)) ∧
    decode ⟨BitVec.ofNat 32 (0x00000012 + 0x100 * 16), 7⟩ = .ok (.push128 (payloadBytes 7 16)) := by decide

/-- Each condition of `reservedOrIllegal`, in its order; a legal word meets none. -/
theorem witness_IllegalWordsAreAnsweredAndChangeNothing :
    reservedOrIllegal 0x00002000 ∧ reservedOrIllegal 0x00000008 ∧ reservedOrIllegal 0x00000021 ∧
    reservedOrIllegal 0x00000010 ∧ reservedOrIllegal 0x00000101 ∧ reservedOrIllegal 0x00000502 ∧
    reservedOrIllegal 0x00001112 ∧ reservedOrIllegal 0x00000043 ∧ reservedOrIllegal 0x000000D3 ∧
    ¬ reservedOrIllegal 0x00001012 := by
  refine ⟨?_, ?_, ?_, ?_, ?_, ?_, ?_, ?_, ?_, ?_⟩ <;> simp only [reservedOrIllegal] <;> decide

theorem witness_IllegalWordsAreAnsweredAndChangeNothing_legal_word :
    ∃ t r, ¬ reservedOrIllegal 0x00000004 ∧ runCommand ⟨0x00000004, 0⟩ (in32 9 []) = .next t ∧
      t.responses = (in32 9 []).responses ++ [r] ∧ r.status ≠ .illegalCommand :=
  ⟨answered (in32 9 []) .ok 9, ⟨.ok, 9⟩, by simp only [reservedOrIllegal]; decide, eq_next_of_nextOf (by decide), rfl, by decide⟩

theorem witness_IllegalWordsAreAnsweredAndChangeNothing_step :
    (State.reset.withFetchWord 32 0x00000502).presented = some (.command ⟨0x00000502, 0⟩) ∧
    nextOf (step (State.reset.withFetchWord 32 0x00000502)) = some (answered State.reset .illegalCommand 0) := by decide

theorem witness_StepRunsDecodedCommand :
    (State.reset.withFetchWord 160 0xCCBB00000202).presented = some (.command ⟨0x00000202, 0xCCBB⟩) ∧
    decode ⟨0x00000202, 0xCCBB⟩ = .ok (.push32 [0xBB, 0xCC]) ∧ Instr.wellFormed (.push32 [0xBB, 0xCC]) = true := by decide

theorem witness_ResetEventZeroesEveryRegister :
    (present .reset (in32 7 [1])).presented = some .reset := rfl

theorem witness_EveryStepKeepsCanonicalForm :
    State.Canonical (present (.command ⟨0x00000212, 0x100F⟩) (in128 1 2 (upFrom 0 15))) ∧
    nextOf (step (present (.command ⟨0x00000212, 0x100F⟩) (in128 1 2 (upFrom 0 15)))) =
      some (answered (in128 0xDCAC505ECDC458E9 0x72927C51AA44045F [0x10]) .ok 0) := by decide

theorem witness_EveryStepCompletes :
    State.reset.presented = none ∧ nextOf (step State.reset) = some State.reset ∧
    nextOf (step (present (.command ⟨8, 0⟩) State.reset)) = some (answered State.reset .illegalCommand 0) := by decide

theorem witness_RunIsTheFoldOverTheCommands :
    (in32 7 [1]).presented = none ∧
    nextOf (driven ([⟨1, 5⟩, ⟨8, 0⟩].map .command) (in32 7 [1])) =
      some (answered (answered (in32 5 []) .ok 0) .illegalCommand 0) := by decide

/-- A full beat on an empty carry, and one that completes no block. -/
theorem witness_Push32FollowsTheByteLoop :
    (upFrom 0 4).length ≤ 4 ∧ 4 ≤ (in32 0 []).bank32.cnt.val + (upFrom 0 4).length ∧
    (upFrom 0 3).length ≤ 4 ∧ ¬ 4 ≤ (in32 0 []).bank32.cnt.val + (upFrom 0 3).length := by decide

theorem witness_Push128FollowsTheByteLoop :
    (upFrom 0 16).length ≤ 16 ∧ 16 ≤ (in128 0 0 (upFrom 0 15)).bank128.cnt.val + (upFrom 0 16).length ∧
    (upFrom 0 15).length ≤ 16 ∧ ¬ 16 ≤ (in128 0 0 []).bank128.cnt.val + (upFrom 0 15).length := by decide

theorem witness_Result32AnswersDigestOrInvalidLength :
    (0x1FFFFFFFF#128).extractLsb' 0 32 = 0xFFFFFFFF#32 ∧
    (0xFFFFFFFF#32).toNat % 4 = (in32 0 [1, 2, 3]).bank32.cnt.val ∧ (4#32).toNat % 4 ≠ (in32 0 [1, 2, 3]).bank32.cnt.val := by
  decide

theorem witness_Result128AnswersDigestOrInvalidLength :
    (0x1FFFFFFFF#128).extractLsb' 0 32 = 0xFFFFFFFF#32 ∧
    (0xFFFFFFFF#32).toNat % 16 = (in128 0 0 (upFrom 0 15)).bank128.cnt.val ∧
    (0x10#32).toNat % 16 ≠ (in128 0 0 (upFrom 0 15)).bank128.cnt.val := by decide

theorem witness_Wrc32LoadsTheCarryOrRefusesTheMarker :
    (0x1AABBCC03#128).extractLsb' 0 32 = 0xAABBCC03#32 ∧ ((0xAABBCC03#32).extractLsb' 0 8).toNat = (3 : Fin 4).val ∧
    carry32Of 0xAABBCC03 3 = padded 3 [0xCC, 0xBB, 0xAA] ∧ 4 ≤ ((0x00000004#32).extractLsb' 0 8).toNat := by decide

/-- Markers 8, 9 and 15, on both sides of the border between the two words, and the first malformed one. -/
theorem witness_Wrc128LoadsTheCarryOrRefusesTheMarker :
    ((0x99AABBCCDDEEFF081122334455667788#128).extractLsb' 64 8).toNat = (8 : Fin 16).val ∧
    ((0x99AABBCCDDEEFF091122334455667788#128).extractLsb' 64 8).toNat = (9 : Fin 16).val ∧
    carry128Of 0x99AABBCCDDEEFF091122334455667788 9 =
      padded 15 [0x88, 0x77, 0x66, 0x55, 0x44, 0x33, 0x22, 0x11, 0x99] ∧
    ((0x99AABBCCDDEEFF0F1122334455667788#128).extractLsb' 64 8).toNat = (15 : Fin 16).val ∧
    16 ≤ ((0x99AABBCCDDEEFF101122334455667788#128).extractLsb' 64 8).toNat := by decide

/-- The hypotheses of `ErrorsWriteNothing`, `ErrorsLeaveNoTrace` and both "raised exactly" statements, with `INVALID_CARRY`. -/
theorem witness_ErrorsWriteNothing :
    ∃ t r, runCommand ⟨0x00000007, 0x00000004⟩ (in32 9 [1]) = .next t ∧ t.responses = (in32 9 [1]).responses ++ [r] ∧
      r.status ≠ .ok ∧ r.status = .invalidCarry :=
  ⟨answered (in32 9 [1]) .invalidCarry 0, ⟨.invalidCarry, 0⟩, eq_next_of_nextOf (by decide), rfl, by decide, rfl⟩

theorem witness_ErrorsLeaveNoTrace :
    ∃ t r, runCommand ⟨0x00000008, 0⟩ (in32 9 [1]) = .next t ∧ t.responses = (in32 9 [1]).responses ++ [r] ∧ r.status ≠ .ok :=
  ⟨answered (in32 9 [1]) .illegalCommand 0, ⟨.illegalCommand, 0⟩, eq_next_of_nextOf (by decide), rfl, by decide⟩

theorem witness_InvalidCarryIsRaisedExactlyByBadMarkers :
    ∃ t r, runCommand ⟨0x00000017, 0x00000000000000100000000000000000⟩ (in128 1 2 []) = .next t ∧
      t.responses = (in128 1 2 []).responses ++ [r] ∧ r.status = .invalidCarry :=
  ⟨answered (in128 1 2 []) .invalidCarry 0, ⟨.invalidCarry, 0⟩, eq_next_of_nextOf (by decide), rfl, rfl⟩

theorem witness_InvalidLengthIsRaisedExactlyByWrongLowBits :
    ∃ t r, runCommand ⟨0x00000093, 0x10⟩ (in128 1 2 [0x10]) = .next t ∧
      t.responses = (in128 1 2 [0x10]).responses ++ [r] ∧ r.status = .invalidLength :=
  ⟨answered (in128 1 2 [0x10]) .invalidLength 0, ⟨.invalidLength, 0⟩, eq_next_of_nextOf (by decide), rfl, rfl⟩

/-- A command of bank 32, a command of bank 128, and one of neither; two states that agree on one bank only. -/
theorem witness_BanksAreIndependent :
    isBank32 ⟨0x00000402, 0⟩ = true ∧ isBank128 ⟨0x00000402, 0⟩ = false ∧ isBank32 ⟨0x00000093, 0⟩ = false ∧
    isBank128 ⟨0x00000093, 0⟩ = true ∧ isBank32 ⟨0, 0⟩ = false ∧ isBank128 ⟨0, 0⟩ = false ∧
    (in128 1 2 [3]).bank32 = (in32 0 []).bank32 ∧ in128 1 2 [3] ≠ in32 0 [] := by decide

theorem witness_BanksAreIndependent_next :
    ∃ t, runCommand ⟨0x00000402, 0⟩ (in128 1 2 [3]) = .next t ∧ isBank32 ⟨0x00000402, 0⟩ = true :=
  (exists_next_of_nextOf (by decide)).elim fun t h => ⟨t, h, by decide⟩

theorem witness_ReadsArePureAndLoadsAreIdempotent :
    Instr.rdc128 ∈ [Instr.nop, .rdh32, .rdc32, .rdh128, .rdc128] ∧ (∃ f n, Instr.result128 .first8 3 = .result128 f n) ∧
    (∃ v, Instr.init128 4 = .init32 v ∨ Instr.init128 4 = .wrh32 v ∨ Instr.init128 4 = .wrc32 v ∨ Instr.init128 4 = .init128 v) ∧
    ∃ w, Instr.wrc128 5 = .wrc128 w :=
  ⟨by decide, ⟨_, _, rfl⟩, ⟨4, .inr (.inr (.inr rfl))⟩, ⟨5, rfl⟩⟩

theorem witness_ResultIsPure : isResult ⟨0x00000003, 7⟩ ∧ isResult ⟨0x00000093, 7⟩ :=
  ⟨.inl ⟨7, by decide⟩, .inr ⟨.first4, 7, by decide⟩⟩

theorem witness_SaveAndRestoreKeepsTheBank :
    State.Canonical (in32 0x12345678 [1, 2, 3]) ∧ State.Canonical (in128 1 2 (upFrom 0xB0 15)) := by decide

/-- Both cases of the closed form, for each bank; a state with an empty carry for the full-beat clauses. -/
theorem witness_PushSplitsAndHasAClosedForm :
    (in32 7 [1, 2, 3]).bank32.Canonical ∧ (upFrom 0 4).length ≤ 4 ∧
    (in32 7 [1, 2]).bank32.cnt.val + (upFrom 0 1).length < 4 ∧ 4 ≤ (in32 7 [1, 2]).bank32.cnt.val + (upFrom 0 2).length ∧
    (in128 7 8 (upFrom 0 15)).bank128.Canonical ∧ (upFrom 0 16).length ≤ 16 ∧
    (in128 7 8 (upFrom 0 7)).bank128.cnt.val + (upFrom 0 8).length < 16 ∧
    16 ≤ (in128 7 8 (upFrom 0 7)).bank128.cnt.val + (upFrom 0 9).length ∧
    (in32 7 []).bank32.cnt = 0 ∧ (in128 7 8 []).bank128.cnt = 0 := by decide

theorem witness_Bank32AfterAStream :
    ∀ i ∈ [Instr.push32 (upFrom 0 3), .rdc32, .nop, .wrc128 1, .push32 (upFrom 3 4)], onlyPushes32 i = true := by decide

theorem witness_Bank128AfterAStream :
    ∀ i ∈ [Instr.push128 (upFrom 0 13), .rdc128, .nop, .wrc32 1, .push128 (upFrom 13 16)], onlyPushes128 i = true := by decide

/-- For `ChunkingInvariance32` and `ChunkingInvariance128`. -/
theorem witness_ChunkingInvariance : [upFrom 0 7, [], upFrom 7 13].flatten.length < 2 ^ 32 := by decide

/-- The second beat is the last of 5 bytes; the first beat of 5 bytes and the second of 33 are not the last. -/
theorem witness_ProcessBeatsCarryTheString :
    process32 (upFrom 0 5) = [.push32 [0, 1, 2, 3], .push32 [4]] ∧ 1 < (process32 (upFrom 0 5)).length ∧
    0 + 1 < (process32 (upFrom 0 5)).length ∧ 2 < (process128 (upFrom 0 33)).length ∧
    1 + 1 < (process128 (upFrom 0 33)).length := by decide

/-- The last marker in range and the first one out of it, for both banks. -/
theorem witness_PseudoCommandStopsAtABadCarry :
    4 ≤ ((0x00000004#32).extractLsb' 0 8).toNat ∧ ((0xAABBCC03#32).extractLsb' 0 8).toNat < 4 ∧
    16 ≤ ((0x0000000000000010#64).extractLsb' 0 8).toNat ∧ ((0x99AABBCCDDEEFF0F#64).extractLsb' 0 8).toNat < 16 := by decide

theorem witness_RotateMovesEveryBit :
    (rotl32 0x00000001 31).getLsbD ((0 + 31) % 32) = (0x00000001#32).getLsbD 0 ∧ rotl32 0x00000001 31 = 0x80000000 ∧
    rotl64 0x0000000000000001 63 = 0x8000000000000000 := by decide

theorem witness_AssemblyIsLittleEndian :
    byteAt (le 32 [1, 2, 3, 4]) 3 = 4 ∧ byteAt (le 32 [1, 2]) 2 = 0 ∧ byteAt (le 64 (upFrom 1 8)) 7 = 8 := by decide

theorem witness_TailFoldIgnoresAbsentBytes :
    (in32 7 [1, 2]).bank32.Canonical ∧ (in128 7 8 (upFrom 1 9)).bank128.Canonical := by decide

/-- TV 3.5: three bytes; the first, the last, and a byte below the first. -/
theorem witness_Pack32PlacesEveryByte :
    pack32 3 (padded 3 [0xB0, 0xB1, 0xB2]) = 0xB2B1B003 ∧ pack32 1 (padded 3 [0xB0]) = 0xB0000001 := by decide

/-- TV 3.5: 8 bytes and 9 bytes, on both sides of the border between the two words. -/
theorem witness_Pack128PlacesEveryByte :
    pack128 8 (padded 15 (upFrom 0xB0 8)) = 0x0000000000000008B7B6B5B4B3B2B1B0 ∧
    pack128 9 (padded 15 (upFrom 0xB0 9)) = 0xB800000000000009B7B6B5B4B3B2B1B0 := by decide

theorem witness_UnpackInvertsPack :
    (in32 7 [1, 2, 3]).bank32.Canonical ∧ (in128 7 8 (upFrom 1 15)).bank128.Canonical ∧ unpack32 0x00000004 = none ∧
    unpack128 0x00000000000000100000000000000000 = none := by decide

end Sys2Proof.Tests
end

section
/-!
The state: what a bank looks like in canonical form, what every command does to the two banks and to the ports, and how a run of
the host's actions unfolds. The lemmas come first; the theorems that settle the obligations of 10_state.md stand at the end.
-/

namespace Sys2Proof.Proofs

open Sys2Proof Sys2Proof.Machine

/-! ### The canonical form of R23, bank by bank -/

/-- The reset state of bank 32 is the start of a stream with seed 0 (R34). -/
theorem bank32_reset_eq_start : Bank32.reset = Bank32.start 0 := rfl

/-- The reset state of bank 128 is the start of a stream with seed 0 (R34). -/
theorem bank128_reset_eq_start : Bank128.reset = Bank128.start 0 := rfl

theorem start32_canonical (seed : Word32) : (Bank32.start seed).Canonical := fun i _ => by
  simp

theorem start128_canonical (seed : Word32) : (Bank128.start seed).Canonical := fun i _ => by
  simp

theorem reset_canonical : State.reset.Canonical := by
  rw [State.Canonical, reset_bank32, reset_bank128, bank32_reset_eq_start, bank128_reset_eq_start]
  exact ⟨start32_canonical 0, start128_canonical 0⟩

/-- UNPACK32 zeroes every byte at or above the marker (R25), so WRC32 loads a canonical carry or nothing. -/
theorem loadCarry32_canonical (w : Word32) {b : Bank32} (hb : b.Canonical) : (loadCarry32 w b).Canonical := by
  unfold loadCarry32
  split
  · next carry hw =>
    obtain ⟨-, hbuf⟩ := unpack32_eq_some hw
    intro i (hi : carry.1.val ≤ i.val)
    simp [hbuf, Nat.not_lt.mpr hi]
  · exact hb

/-- UNPACK128 zeroes every byte at or above the marker (R27), so WRC128 loads a canonical carry or nothing. -/
theorem loadCarry128_canonical (w : Payload) {b : Bank128} (hb : b.Canonical) : (loadCarry128 w b).Canonical := by
  unfold loadCarry128
  split
  · next carry hw =>
    obtain ⟨-, hbuf⟩ := unpack128_eq_some hw
    intro i (hi : carry.1.val ≤ i.val)
    have hge : ¬ i.val < carry.1.val := Nat.not_lt.mpr hi
    by_cases hm : carry.1.val ≤ 8
    · simp [hbuf, hm, hge]
    · simp [hbuf, hm, hge, show ¬ i.val < 8 by omega]
  · exact hb

/-- INIT empties the carry, PUSH and WRC keep the form, and no other command writes `CNT32` or `BUF32`. -/
theorem bank32After_canonical (i : Instr) {b : Bank32} (hb : b.Canonical) : (bank32After i b).Canonical := by
  cases i with
  | init32 seed => exact start32_canonical seed
  | push32 bytes => exact pushBytes32_canonical mmh3c b bytes hb
  | wrc32 w => exact loadCarry32_canonical w hb
  | _ => exact hb

/-- INIT empties the carry, PUSH and WRC keep the form, and no other command writes `CNT128` or `BUF128`. -/
theorem bank128After_canonical (i : Instr) {b : Bank128} (hb : b.Canonical) : (bank128After i b).Canonical := by
  cases i with
  | init128 seed => exact start128_canonical seed
  | push128 bytes => exact pushBytes128_canonical mmh3c b bytes hb
  | wrc128 w => exact loadCarry128_canonical w hb
  | _ => exact hb

theorem after_canonical (i : Instr) {s : State} (hs : s.Canonical) : (after i s).Canonical :=
  ⟨bank32After_canonical i hs.1, bank128After_canonical i hs.2⟩

/-- A command transaction keeps the form: a decoded command by its rule, an illegal word because it writes no register. -/
theorem runCommand_canonical {c : Command} {s t : State} (hs : s.Canonical) (h : runCommand c s = .next t) : t.Canonical := by
  obtain ⟨i, -, hrun⟩ | ⟨why, -, hrun⟩ := runCommand_cases c s
  · obtain rfl : after i s = t := by simpa [hrun] using h
    exact after_canonical i hs
  · obtain rfl : transact (raise .illegalCommand) s = t := by simpa [hrun] using h
    exact hs

/-! ### Every command is one rule over the registers -/

/-- What a command transaction does to the registers, and its response: the effect of the decoded command, or the error of an
illegal word (R50, R161). -/
def commandRule (c : Command) (b : Block) : Block × Response :=
  match decode c with
  | .ok i => (⟨bank32After i b.bank32, bank128After i b.bank128⟩, answerOf i b.bank32 b.bank128)
  | .illegal _ => raise .illegalCommand b

theorem commandRule_of_ok {c : Command} {i : Instr} (h : decode c = .ok i) (b : Block) :
    commandRule c b = (⟨bank32After i b.bank32, bank128After i b.bank128⟩, answerOf i b.bank32 b.bank128) := by
  simp [commandRule, h]

theorem commandRule_of_illegal {c : Command} {why : Illegal} (h : decode c = .illegal why) (b : Block) :
    commandRule c b = raise .illegalCommand b := by
  simp [commandRule, h]

/-- Every transaction is the transaction of its rule: it goes on, with its one response, and nothing at the ports is read. -/
theorem runCommand_eq_transact (c : Command) (s : State) : runCommand c s = .next (transact (commandRule c) s) := by
  obtain ⟨i, hd, hrun⟩ | ⟨why, hd, hrun⟩ := runCommand_cases c s
  · rw [hrun, transact, commandRule_of_ok hd]
    rfl
  · rw [hrun, transact, transact, commandRule_of_illegal hd]

/-! ### Which bank a command touches (R32) -/

theorem isBank32_of_ok {c : Command} {i : Instr} (h : decode c = .ok i) : isBank32 c = actsOnBank32 i := by
  simp [isBank32, h]

theorem isBank32_of_illegal {c : Command} {why : Illegal} (h : decode c = .illegal why) : isBank32 c = false := by
  simp [isBank32, h]

theorem isBank128_of_ok {c : Command} {i : Instr} (h : decode c = .ok i) : isBank128 c = actsOnBank128 i := by
  simp [isBank128, h]

theorem isBank128_of_illegal {c : Command} {why : Illegal} (h : decode c = .illegal why) : isBank128 c = false := by
  simp [isBank128, h]

theorem actsOnBank128_of_actsOnBank32 {i : Instr} (h : actsOnBank32 i = true) : actsOnBank128 i = false := by
  cases i with
  | init32 _ | push32 _ | result32 _ | rdh32 | rdc32 | wrh32 _ | wrc32 _ => rfl
  | _ => cases h

theorem bank32After_of_not_actsOnBank32 {i : Instr} (h : actsOnBank32 i = false) (b : Bank32) : bank32After i b = b := by
  cases i with
  | init32 _ | push32 _ | result32 _ | rdh32 | rdc32 | wrh32 _ | wrc32 _ => cases h
  | _ => rfl

theorem bank128After_of_not_actsOnBank128 {i : Instr} (h : actsOnBank128 i = false) (b : Bank128) : bank128After i b = b := by
  cases i with
  | init128 _ | push128 _ | result128 _ _ | rdh128 | rdc128 | wrh128 _ _ | wrc128 _ => cases h
  | _ => rfl

/-- A command that does not act on bank 128 answers from bank 32 alone. -/
theorem answerOf_of_not_actsOnBank128 {i : Instr} (h : actsOnBank128 i = false) (b : Bank32) (d d' : Bank128) :
    answerOf i b d = answerOf i b d' := by
  cases i with
  | init128 _ | push128 _ | result128 _ _ | rdh128 | rdc128 | wrh128 _ _ | wrc128 _ => cases h
  | _ => rfl

/-- A command that does not act on bank 32 answers from bank 128 alone. -/
theorem answerOf_of_not_actsOnBank32 {i : Instr} (h : actsOnBank32 i = false) (b b' : Bank32) (d : Bank128) :
    answerOf i b d = answerOf i b' d := by
  cases i with
  | init32 _ | push32 _ | result32 _ | rdh32 | rdc32 | wrh32 _ | wrc32 _ => cases h
  | _ => rfl

theorem isBank128_of_isBank32 {c : Command} (h : isBank32 c = true) : isBank128 c = false := by
  cases hd : decode c with
  | ok i => exact isBank128_of_ok hd ▸ actsOnBank128_of_actsOnBank32 (isBank32_of_ok hd ▸ h)
  | illegal why => exact isBank128_of_illegal hd

theorem isBank32_of_isBank128 {c : Command} (h : isBank128 c = true) : isBank32 c = false := by
  by_contra hc
  rw [isBank128_of_isBank32 (Bool.eq_true_of_not_eq_false hc)] at h
  cases h

/-- A command that is not of bank 32, an illegal word included, leaves bank 32. -/
theorem commandRule_bank32_of_not {c : Command} (h : isBank32 c = false) (b : Block) :
    (commandRule c b).1.bank32 = b.bank32 := by
  cases hd : decode c with
  | ok i => simp [commandRule_of_ok hd, bank32After_of_not_actsOnBank32 (isBank32_of_ok hd ▸ h)]
  | illegal why => simp [commandRule_of_illegal hd]

/-- A command that is not of bank 128, an illegal word included, leaves bank 128. -/
theorem commandRule_bank128_of_not {c : Command} (h : isBank128 c = false) (b : Block) :
    (commandRule c b).1.bank128 = b.bank128 := by
  cases hd : decode c with
  | ok i => simp [commandRule_of_ok hd, bank128After_of_not_actsOnBank128 (isBank128_of_ok hd ▸ h)]
  | illegal why => simp [commandRule_of_illegal hd]

/-- Bank 32 after a command is a function of bank 32 alone. -/
theorem commandRule_bank32_congr (c : Command) {b b' : Block} (h : b'.bank32 = b.bank32) :
    (commandRule c b').1.bank32 = (commandRule c b).1.bank32 := by
  cases hd : decode c with
  | ok i => simp [commandRule_of_ok hd, h]
  | illegal why => simp [commandRule_of_illegal hd, h]

/-- Bank 128 after a command is a function of bank 128 alone. -/
theorem commandRule_bank128_congr (c : Command) {b b' : Block} (h : b'.bank128 = b.bank128) :
    (commandRule c b').1.bank128 = (commandRule c b).1.bank128 := by
  cases hd : decode c with
  | ok i => simp [commandRule_of_ok hd, h]
  | illegal why => simp [commandRule_of_illegal hd, h]

/-- The answer of a command that is not of bank 128 is a function of bank 32 alone. -/
theorem commandRule_answer_congr32 {c : Command} (hc : isBank128 c = false) {b b' : Block} (h : b'.bank32 = b.bank32) :
    (commandRule c b').2 = (commandRule c b).2 := by
  cases hd : decode c with
  | ok i =>
    simp only [commandRule_of_ok hd, h]
    exact answerOf_of_not_actsOnBank128 (isBank128_of_ok hd ▸ hc) _ _ _
  | illegal why => simp [commandRule_of_illegal hd]

/-- The answer of a command that is not of bank 32 is a function of bank 128 alone. -/
theorem commandRule_answer_congr128 {c : Command} (hc : isBank32 c = false) {b b' : Block} (h : b'.bank128 = b.bank128) :
    (commandRule c b').2 = (commandRule c b).2 := by
  cases hd : decode c with
  | ok i =>
    simp only [commandRule_of_ok hd, h]
    exact answerOf_of_not_actsOnBank32 (isBank32_of_ok hd ▸ hc) _ _ _
  | illegal why => simp [commandRule_of_illegal hd]

/-! ### Runs of the host's actions -/

/-- Presenting a command and stepping is running it, when nothing else was presented. -/
theorem step_present_command (c : Command) {s : State} (hs : s.presented = none) :
    step (present (.command c) s) = runCommand c s := by
  have hclear : { present (.command c) s with presented := none } = s := by
    rw [← hs]
    rfl
  calc step (present (.command c) s) = runCommand c { present (.command c) s with presented := none } := rfl
    _ = runCommand c s := by rw [hclear]

theorem step_present_reset (s : State) : step (present .reset s) = .next State.reset := rfl

theorem step_of_presented_none {s : State} (hs : s.presented = none) : step s = .next s := by
  simp [step, hs]

/-- The step that takes an action goes on, and leaves nothing presented. -/
theorem step_present (a : HostAction) (s : State) : ∃ t, step (present a s) = .next t ∧ t.presented = none := by
  cases a with
  | command c => exact ⟨_, runCommand_eq_transact c { s with presented := none }, rfl⟩
  | reset => exact ⟨State.reset, step_present_reset s, rfl⟩

/-- Commands presented one after another run as the fold over their list. -/
theorem driven_commands (cs : List Command) {s : State} (hs : s.presented = none) :
    driven (cs.map .command) s = runList cs s := by
  induction cs generalizing s with
  | nil => rfl
  | cons c cs ih =>
    rw [List.map_cons, driven, runList, step_present_command c hs, runCommand_eq_transact, andThen_next, andThen_next]
    exact ih (by rw [transact_presented, hs])

/-- Whatever came before a reset, the run goes on from the reset state. -/
theorem driven_reset (before later : List HostAction) (s : State) :
    driven (before ++ .reset :: later) s = driven later State.reset := by
  induction before generalizing s with
  | nil => rw [List.nil_append, driven, step_present_reset, andThen_next]
  | cons a before ih =>
    obtain ⟨t, ht, -⟩ := step_present a s
    rw [List.cons_append, driven, ht, andThen_next, ih]

/-- A run goes on from where its first step leads. -/
theorem run_succ_of_step {s t : State} (k : Nat) (h : step s = .next t) :
    Host.Core.run Sys2Proof.core (k + 1) s = Host.Core.run Sys2Proof.core k t := by
  have hstep : Host.Core.step Sys2Proof.core s = .next t := h
  simp only [Host.Core.run, hstep]

/-- With nothing presented, no number of steps changes anything. -/
theorem run_of_presented_none (k : Nat) {s : State} (hs : s.presented = none) : Host.Core.run Sys2Proof.core k s = .next s := by
  induction k with
  | zero => rfl
  | succ k ih => rw [run_succ_of_step k (step_of_presented_none hs), ih]

/-- Steps after the one that takes a presented action change nothing. -/
theorem run_present (a : HostAction) (k : Nat) (s : State) :
    Host.Core.run Sys2Proof.core (k + 1) (present a s) = step (present a s) := by
  obtain ⟨t, ht, hnone⟩ := step_present a s
  exact (run_succ_of_step k ht).trans ((run_of_presented_none k hnone).trans ht.symm)

/-! ### The bytes of a packed carry (R24, R26) -/

/-- Byte `i` of the valid bytes of a buffer. -/
theorem getD_take_toList {n : Nat} (buf : Vector Byte n) {i k : Nat} (hk : i < k) (hn : i < n) :
    (buf.toList.take k).getD i 0 = buf[i] := by
  simp [List.getD_eq_getElem?_getD, hk, hn]

/-- The image of bank 32: marker, zeros, then the valid bytes up to bit 31. -/
theorem byteAt_pack32 (cnt : Fin 4) (buf : Vector Byte 3) {j : Nat} (hj : j < 4) :
    byteAt (pack32 cnt buf) j =
      if j = 0 then BitVec.ofNat 8 cnt.val
      else if j < 4 - cnt.val then 0
      else (buf.toList.take cnt.val).getD (j - (4 - cnt.val)) 0 := by
  have hcnt := cnt.isLt
  rw [pack32, byteAt_or, byteAt_shiftLeft _ _ _ (by omega), byteAt_ofNat _ _ _ (by omega) (by omega), byteAt_le _ _ _ (by omega)]
  by_cases h0 : j = 0
  · simp [h0]
  · simp [h0]

/-- The image of bank 128 while the carry fits in `c1`: the two words. -/
theorem pack128_of_le {cnt : Fin 16} (h : cnt.val ≤ 8) (buf : Vector Byte 15) :
    pack128 cnt buf = BitVec.ofNat 64 cnt.val ++ (le 64 (buf.toList.take cnt.val) <<< (8 * (8 - cnt.val))) := by
  simp [pack128, h]

/-- The image of bank 128 from the ninth byte on: the two words. -/
theorem pack128_of_gt {cnt : Fin 16} (h : 8 < cnt.val) (buf : Vector Byte 15) :
    pack128 cnt buf =
      (BitVec.ofNat 64 cnt.val ||| (le 64 ((buf.toList.take cnt.val).drop 8) <<< (8 * (16 - cnt.val)))) ++
        le 64 ((buf.toList.take cnt.val).take 8) := by
  simp [pack128, Nat.not_le.mpr h]

/-- Up to 8 bytes: zeros, the valid bytes up to bit 63 of `c1`, the marker, and zeros. -/
theorem byteAt_pack128_of_le {cnt : Fin 16} (h : cnt.val ≤ 8) (buf : Vector Byte 15) {j : Nat} (hj : j < 16) :
    byteAt (pack128 cnt buf) j =
      if j < 8 then (if j < 8 - cnt.val then 0 else (buf.toList.take cnt.val).getD (j - (8 - cnt.val)) 0)
      else if j = 8 then BitVec.ofNat 8 cnt.val
      else 0 := by
  rw [pack128_of_le h, byteAt_append]
  by_cases h8 : j < 8
  · rw [if_pos h8, if_pos h8, byteAt_shiftLeft _ _ _ (by omega), byteAt_le _ _ _ (by omega)]
  · rw [if_neg h8, if_neg h8, byteAt_ofNat _ _ _ (by omega) (by omega)]
    simp only [show j - 8 = 0 ↔ j = 8 by omega]

/-- From the ninth byte on: eight bytes in `c1`; in `c2` the marker, zeros, and the other bytes up to bit 63. -/
theorem byteAt_pack128_of_gt {cnt : Fin 16} (h : 8 < cnt.val) (buf : Vector Byte 15) {j : Nat} (hj : j < 16) :
    byteAt (pack128 cnt buf) j =
      if j < 8 then (buf.toList.take cnt.val).getD j 0
      else if j = 8 then BitVec.ofNat 8 cnt.val
      else if j - 8 < 16 - cnt.val then 0
      else (buf.toList.take cnt.val).getD (8 + (j - 8 - (16 - cnt.val))) 0 := by
  have hcnt := cnt.isLt
  rw [pack128_of_gt h, byteAt_append]
  by_cases h8 : j < 8
  · rw [if_pos h8, if_pos h8, byteAt_le _ _ _ (by omega)]
    simp [List.getD_eq_getElem?_getD, List.getElem?_take, h8]
  · rw [if_neg h8, if_neg h8, byteAt_or, byteAt_ofNat _ _ _ (by omega) (by omega), byteAt_shiftLeft _ _ _ (by omega),
      byteAt_le _ _ _ (by omega)]
    by_cases h0 : j = 8
    · simp [h0, show 0 < 16 - cnt.val by omega]
    · simp [h0, show j - 8 ≠ 0 by omega, List.getD_eq_getElem?_getD, List.getElem?_drop]

theorem marker_pack32 (cnt : Fin 4) (buf : Vector Byte 3) : byteAt (pack32 cnt buf) 0 = BitVec.ofNat 8 cnt.val := by
  rw [byteAt_pack32 cnt buf (by decide), if_pos rfl]

/-- A valid byte of the carry stands right-justified in the image of bank 32. -/
theorem byteAt_pack32_valid {cnt : Fin 4} (buf : Vector Byte 3) {i : Nat} (hi : i < 3) (hcnt : i < cnt.val) :
    byteAt (pack32 cnt buf) (4 - cnt.val + i) = buf[i] := by
  have hlt := cnt.isLt
  rw [byteAt_pack32 cnt buf (by omega), if_neg (by omega), if_neg (by omega), Nat.add_sub_cancel_left,
    getD_take_toList buf hcnt hi]

theorem marker_pack128 (cnt : Fin 16) (buf : Vector Byte 15) : byteAt (pack128 cnt buf) 8 = BitVec.ofNat 8 cnt.val := by
  by_cases h : cnt.val ≤ 8
  · rw [byteAt_pack128_of_le h buf (by decide)]
    simp
  · rw [byteAt_pack128_of_gt (Nat.not_le.mp h) buf (by decide)]
    simp

/-- Up to 8 bytes, a valid byte stands right-justified in `c1`. -/
theorem byteAt_pack128_valid_of_le {cnt : Fin 16} (h : cnt.val ≤ 8) (buf : Vector Byte 15) {i : Nat} (hi : i < 15)
    (hcnt : i < cnt.val) : byteAt (pack128 cnt buf) (8 - cnt.val + i) = buf[i] := by
  rw [byteAt_pack128_of_le h buf (by omega), if_pos (by omega), if_neg (by omega), Nat.add_sub_cancel_left,
    getD_take_toList buf hcnt hi]

/-- From the ninth byte on, the first eight are `c1`. -/
theorem byteAt_pack128_low_of_gt {cnt : Fin 16} (h : 8 < cnt.val) (buf : Vector Byte 15) {i : Nat} (hi : i < 8) :
    byteAt (pack128 cnt buf) i = buf[i] := by
  rw [byteAt_pack128_of_gt h buf (by omega), if_pos hi, getD_take_toList buf (by omega) (by omega)]

/-- From the ninth byte on, the others stand right-justified in `c2`. -/
theorem byteAt_pack128_high_of_gt {cnt : Fin 16} (h : 8 < cnt.val) (buf : Vector Byte 15) {i : Nat} (hi : i < 15) (h8 : 8 ≤ i)
    (hcnt : i < cnt.val) : byteAt (pack128 cnt buf) (8 + (16 - cnt.val + (i - 8))) = buf[i] := by
  have hindex : 8 + (8 + (16 - cnt.val + (i - 8)) - 8 - (16 - cnt.val)) = i := by omega
  rw [byteAt_pack128_of_gt h buf (by omega), if_neg (by omega), if_neg (by omega), if_neg (by omega), hindex,
    getD_take_toList buf hcnt hi]

/-- Byte `j` of `c1` is byte `j` of the image (R43). -/
theorem byteAt_low_word (w : Payload) {j : Nat} (hj : j < 8) : byteAt (w.extractLsb' 0 64) j = byteAt w j := by
  apply BitVec.eq_of_getLsbD_eq
  intro k hk
  simp [getLsbD_byteAt, show 8 * j + k < 64 by omega]

/-- Byte `j` of `c2` is byte `8 + j` of the image (R43). -/
theorem byteAt_high_word (w : Payload) {j : Nat} (hj : j < 8) : byteAt (w.extractLsb' 64 64) j = byteAt w (8 + j) := by
  apply BitVec.eq_of_getLsbD_eq
  intro k hk
  have hindex : 64 + (8 * j + k) = 8 * (8 + j) + k := by omega
  simp [getLsbD_byteAt, show 8 * j + k < 64 by omega, hindex]

/-- While the carry fits in `c1`, `c2` is the marker alone. -/
theorem high_word_pack128_of_le {cnt : Fin 16} (h : cnt.val ≤ 8) (buf : Vector Byte 15) :
    (pack128 cnt buf).extractLsb' 64 64 = BitVec.ofNat 64 cnt.val := by
  rw [pack128_of_le h]
  exact BitVec.extractLsb'_append_eq_left

/-! ### Unpacking (R25, R27) -/

/-- An image of bank 32 is malformed exactly when its marker is out of range. -/
theorem unpack32_eq_none_iff (w : Word32) : unpack32 w = none ↔ 4 ≤ (byteAt w 0).toNat := by
  by_cases h : (byteAt w 0).toNat < 4
  · simp [unpack32_of_lt w h, h]
  · simp [unpack32_of_ge w h, Nat.not_lt.mp h]

/-- An image of bank 128 is malformed exactly when its marker is out of range. -/
theorem unpack128_eq_none_iff (w : Payload) : unpack128 w = none ↔ 16 ≤ (byteAt w 8).toNat := by
  by_cases h : (byteAt w 8).toNat < 16
  · simp [unpack128_of_lt w h, h]
  · simp [unpack128_of_ge w h, Nat.not_lt.mp h]

/-- An image of bank 32 whose marker is the count `m` unpacks to that count and the bytes of that marker. -/
theorem unpack32_of_marker {w : Word32} {m : Fin 4} (h : byteAt w 0 = BitVec.ofNat 8 m.val) :
    unpack32 w = some (m, carryBytes32 w m.val) := by
  have hm : (byteAt w 0).toNat = m.val := by
    rw [h, BitVec.toNat_ofNat]
    omega
  simp [unpack32_of_lt w (by omega), hm]

/-- An image of bank 128 whose marker is the count `m` unpacks to that count and the bytes of that marker. -/
theorem unpack128_of_marker {w : Payload} {m : Fin 16} (h : byteAt w 8 = BitVec.ofNat 8 m.val) :
    unpack128 w = some (m, carryBytes128 w m.val) := by
  have hm : (byteAt w 8).toNat = m.val := by
    rw [h, BitVec.toNat_ofNat]
    omega
  simp [unpack128_of_lt w (by omega), hm]

/-- The carry bytes of the image of a canonical bank 32 are its buffer: the valid ones as packed, the others 0. -/
theorem carryBytes32_pack32 {b : Bank32} (hb : b.Canonical) : carryBytes32 (pack32 b.cnt b.buf) b.cnt.val = b.buf := by
  ext1 i hi
  rw [getElem_carryBytes32]
  by_cases h : i < b.cnt.val
  · rw [if_pos h, byteAt_pack32_valid b.buf hi h]
  · rw [if_neg h]
    exact (hb ⟨i, hi⟩ (Nat.not_lt.mp h)).symm

/-- The carry bytes of the image of a canonical bank 128 are its buffer: the valid ones as packed, the others 0. -/
theorem carryBytes128_pack128 {b : Bank128} (hb : b.Canonical) :
    carryBytes128 (pack128 b.cnt b.buf) b.cnt.val = b.buf := by
  ext1 i hi
  rw [getElem_carryBytes128]
  have hzero : ¬ i < b.cnt.val → (0 : Byte) = b.buf[i] := fun h => (hb ⟨i, hi⟩ (Nat.not_lt.mp h)).symm
  split_ifs with hle hcnt h8 hcnt
  · exact byteAt_pack128_valid_of_le hle b.buf hi hcnt
  · exact hzero hcnt
  · exact byteAt_pack128_low_of_gt (Nat.not_le.mp hle) b.buf h8
  · exact byteAt_pack128_high_of_gt (Nat.not_le.mp hle) b.buf hi (Nat.not_lt.mp h8) hcnt
  · exact hzero hcnt

/-! ### The obligations -/

/-- Settles O12: by cases on what a step can do; the reset state has the form, and every command keeps it. -/
theorem everyStepKeepsCanonicalForm : Obligations.EveryStepKeepsCanonicalForm := by
  intro s t hs hstep
  obtain ⟨-, rfl⟩ | ⟨-, rfl⟩ | ⟨c, -, hrun⟩ := step_cases hstep
  · exact hs
  · exact reset_canonical
  · exact runCommand_canonical (s := { s with presented := none }) hs hrun

/-- Settles O15, by induction over the commands, over the actions before the reset, and over the number of steps. -/
theorem runIsTheFoldOverTheCommands : Obligations.RunIsTheFoldOverTheCommands :=
  ⟨fun cs _ hs => driven_commands cs hs, driven_reset, run_present⟩

/-- Settles O36: a command is one rule over the registers, which writes and reads the banks as R32 says. -/
theorem banksAreIndependent : Obligations.BanksAreIndependent := by
  intro c s t hrun
  obtain rfl : transact (commandRule c) s = t := by simpa [runCommand_eq_transact] using hrun
  refine ⟨fun h => commandRule_bank32_of_not h _, fun h => commandRule_bank128_of_not h _, isBank128_of_isBank32, ?_, ?_⟩
  · intro h32 s' hs'
    exact ⟨_, _, runCommand_eq_transact c s', commandRule_bank32_congr c hs', rfl,
      by rw [commandRule_answer_congr32 (isBank128_of_isBank32 h32) hs', transact_responses]⟩
  · intro h128 s' hs'
    exact ⟨_, _, runCommand_eq_transact c s', commandRule_bank128_congr c hs', rfl,
      by rw [commandRule_answer_congr128 (isBank32_of_isBank128 h128) hs', transact_responses]⟩

/-- Settles O58, byte by byte. -/
theorem pack32PlacesEveryByte : Obligations.Pack32PlacesEveryByte := by
  intro cnt buf
  refine ⟨marker_pack32 cnt buf, fun i hi => byteAt_pack32_valid buf i.isLt hi, fun j hpos hj => ?_⟩
  calc byteAt (pack32 cnt buf) j = _ := byteAt_pack32 cnt buf (by omega)
    _ = 0 := by rw [if_neg hpos.ne', if_pos hj]

/-- Settles O59, byte by byte of the two words, on both sides of the border at 8 bytes. -/
theorem pack128PlacesEveryByte : Obligations.Pack128PlacesEveryByte := by
  intro cnt buf c1 c2
  have hc1 : ∀ {j}, j < 8 → byteAt c1 j = byteAt (pack128 cnt buf) j := fun hj => byteAt_low_word _ hj
  have hc2 : ∀ {j}, j < 8 → byteAt c2 j = byteAt (pack128 cnt buf) (8 + j) := fun hj => byteAt_high_word _ hj
  refine ⟨(hc2 (j := 0) (by decide)).trans (marker_pack128 cnt buf), fun hle => ⟨?_, fun i hi => ?_, fun j hj => ?_⟩,
    fun hgt => ⟨fun i hi => ?_, fun i h8 hi => ?_, fun j hpos hj => ?_⟩⟩
  · rw [show c2 = _ from high_word_pack128_of_le hle buf, BitVec.toNat_ofNat]
    omega
  · exact (hc1 (by omega)).trans (byteAt_pack128_valid_of_le hle buf i.isLt hi)
  · calc byteAt c1 j = _ := (hc1 (by omega)).trans (byteAt_pack128_of_le hle buf (by omega))
      _ = 0 := by rw [if_pos (by omega), if_pos hj]
  · exact (hc1 hi).trans (byteAt_pack128_low_of_gt hgt buf hi)
  · exact (hc2 (by omega)).trans (byteAt_pack128_high_of_gt hgt buf i.isLt h8 hi)
  · calc byteAt c2 j = _ := (hc2 (by omega)).trans (byteAt_pack128_of_gt hgt buf (by omega))
      _ = 0 := by rw [if_neg (by omega), if_neg (by omega), if_pos (by omega)]

/-- Settles O60: the packed marker is the count, and the carry bytes of that marker are the buffer. -/
theorem unpackInvertsPack : Obligations.UnpackInvertsPack := by
  refine ⟨unpack32_eq_none_iff, unpack128_eq_none_iff, fun b hb => ?_, fun b hb => ?_⟩
  · rw [unpack32_of_marker (marker_pack32 b.cnt b.buf), carryBytes32_pack32 hb]
  · rw [unpack128_of_marker (marker_pack128 b.cnt b.buf), carryBytes128_pack128 hb]

/-- Settles O10: INIT with seed 0 starts the stream that the reset state of its bank is. -/
theorem resetLeavesTheEmptyState : Obligations.ResetLeavesTheEmptyState := by
  refine ⟨rfl, rfl, fun i => ?_, rfl, rfl, rfl, fun i => ?_, fun s => ?_⟩
  · simp [bank32_reset_eq_start]
  · simp [bank128_reset_eq_start]
  · calc execList [.init32 0, .init128 0] s = .next (after (.init128 0) (after (.init32 0) s)) := by simp
      _ = .next { s with bank32 := Bank32.start 0, bank128 := Bank128.start 0,
                         responses := s.responses ++ [⟨.ok, 0⟩] ++ [⟨.ok, 0⟩] } := rfl
      _ = _ := by
        rw [← bank32_reset_eq_start, ← bank128_reset_eq_start, List.append_assoc]
        rfl

/-- Settles O11. -/
theorem resetStateIsCanonical : Obligations.ResetStateIsCanonical := reset_canonical

/-- Settles O13: the function is the command rule. -/
theorem everyCommandGetsOneResponse : Obligations.EveryCommandGetsOneResponse :=
  ⟨commandRule, runCommand_eq_transact⟩

end Sys2Proof.Proofs
end

section
/-!
The command port and the payload: the bytes of an assembled word and of a payload, the step that takes a presented command, and
what a command done twice does. The theorems that settle the obligations of 20_memory.md stand at the end.
-/

namespace Sys2Proof.Proofs

open Sys2Proof Sys2Proof.Machine

/-! ### Payload bytes and assembly (R41, R42) -/

/-- Byte `j` of a byte-aligned field that starts at byte `k` is byte `k + j` of the value. -/
theorem byteAt_extractLsb' {w : Nat} (v : BitVec w) (k len : Nat) {j : Nat} (hj : 8 * j + 8 ≤ len) :
    byteAt (v.extractLsb' (8 * k) len) j = byteAt v (k + j) := by
  apply BitVec.eq_of_getLsbD_eq
  intro i hi
  have hindex : 8 * k + (8 * j + i) = 8 * (k + j) + i := by omega
  simp [getLsbD_byteAt, show 8 * j + i < len by omega, hindex]

/-- The `n` bytes from byte `k` on assemble to the field of `n` bytes that starts there. -/
theorem le_bytes_range' {w : Nat} (v : BitVec w) (k n : Nat) :
    le (8 * n) ((List.range' k n).map (byteAt v)) = v.extractLsb' (8 * k) (8 * n) := by
  apply eq_of_byteAt_eq
  intro j hj
  calc byteAt (le (8 * n) ((List.range' k n).map (byteAt v))) j = ((List.range' k n).map (byteAt v)).getD j 0 :=
        byteAt_le _ _ _ (by omega)
    _ = byteAt v (k + j) := by simp [hj]
    _ = byteAt (v.extractLsb' (8 * k) (8 * n)) j := (byteAt_extractLsb' v k (8 * n) (by omega)).symm

/-! ### The step that takes a command (R50) -/

/-- The step takes a presented command off the port and runs it. -/
theorem step_of_presented_command {s : State} {c : Command} (hs : s.presented = some (.command c)) :
    step s = runCommand c { s with presented := none } := by
  simp only [step, hs]

theorem step_of_presented_reset {s : State} (hs : s.presented = some .reset) : step s = .next State.reset := by
  simp only [step, hs, resetEvent]

/-- Whatever is presented, the step goes on and leaves nothing presented. -/
theorem step_completes (s : State) : ∃ t, step s = .next t ∧ t.presented = none := by
  cases hs : s.presented with
  | none => exact ⟨s, step_of_presented_none hs, hs⟩
  | some a =>
    cases a with
    | reset => exact ⟨State.reset, step_of_presented_reset hs, reset_presented⟩
    | command c => exact ⟨_, (step_of_presented_command hs).trans (runCommand_eq_transact c _), transact_presented _ _⟩

/-! ### Commands done twice (R48) -/

/-- The command leaves every register as it is, whatever the registers hold. -/
def KeepsRegisters (i : Instr) : Prop :=
  (∀ b, bank32After i b = b) ∧ ∀ d, bank128After i d = d

/-- Such a command adds its answer to the responses and does nothing else. -/
theorem after_of_keepsRegisters {i : Instr} (hi : KeepsRegisters i) (s : State) :
    after i s = { s with responses := s.responses ++ [answerOf i s.bank32 s.bank128] } := by
  rw [after, hi.1, hi.2]

/-- Such a command done twice finds the same registers, and repeats its answer. -/
theorem after_after_of_keepsRegisters {i : Instr} (hi : KeepsRegisters i) (s : State) :
    after i (after i s) =
      { s with responses := s.responses ++ [answerOf i s.bank32 s.bank128, answerOf i s.bank32 s.bank128] } := by
  simp [after_of_keepsRegisters hi]

/-- The commands that read: NOP, RDH, RDC and RESULT (R48). -/
def isRead : Instr → Bool
  | .nop | .rdh32 | .rdc32 | .result32 _ | .rdh128 | .rdc128 | .result128 _ _ => true
  | .init32 _ | .push32 _ | .wrh32 _ | .wrc32 _ | .init128 _ | .push128 _ | .wrh128 _ _ | .wrc128 _ => false

theorem keepsRegisters_of_isRead {i : Instr} (h : isRead i = true) : KeepsRegisters i := by
  cases i with
  | nop | rdh32 | rdc32 | result32 _ | rdh128 | rdc128 | result128 _ _ => exact ⟨fun _ => rfl, fun _ => rfl⟩
  | _ => cases h

/-- The command writes the same registers again when it is done again, and its answer depends on its operand alone. -/
def IsIdempotentLoad (i : Instr) : Prop :=
  (∀ b, bank32After i (bank32After i b) = bank32After i b) ∧ (∀ d, bank128After i (bank128After i d) = bank128After i d) ∧
  ∀ b b' d d', answerOf i b d = answerOf i b' d'

/-- Such a command done a second time repeats its answer and changes no register. -/
theorem after_after_of_isIdempotentLoad {i : Instr} (hi : IsIdempotentLoad i) (s : State) :
    after i (after i s) =
      { after i s with responses := (after i s).responses ++ [answerOf i s.bank32 s.bank128] } := by
  obtain ⟨h32, h128, hanswer⟩ := hi
  rw [after, after_bank32, after_bank128, h32, h128, hanswer _ s.bank32 _ s.bank128]
  rfl

/-- An image loads the same carry twice, and a malformed one loads nothing twice. -/
theorem loadCarry32_loadCarry32 (w : Word32) (b : Bank32) : loadCarry32 w (loadCarry32 w b) = loadCarry32 w b := by
  unfold loadCarry32
  cases unpack32 w <;> rfl

/-- An image loads the same carry twice, and a malformed one loads nothing twice. -/
theorem loadCarry128_loadCarry128 (w : Payload) (d : Bank128) : loadCarry128 w (loadCarry128 w d) = loadCarry128 w d := by
  unfold loadCarry128
  cases unpack128 w <;> rfl

/-- The commands that load an operand: INIT, WRH and WRC (R48). -/
def isLoad : Instr → Bool
  | .init32 _ | .wrh32 _ | .wrc32 _ | .init128 _ | .wrh128 _ _ | .wrc128 _ => true
  | .nop | .push32 _ | .rdh32 | .rdc32 | .result32 _ | .push128 _ | .rdh128 | .rdc128 | .result128 _ _ => false

theorem isIdempotentLoad_of_isLoad {i : Instr} (h : isLoad i = true) : IsIdempotentLoad i := by
  cases i with
  | wrc32 w => exact ⟨loadCarry32_loadCarry32 w, fun _ => rfl, fun _ _ _ _ => rfl⟩
  | wrc128 w => exact ⟨fun _ => rfl, loadCarry128_loadCarry128 w, fun _ _ _ _ => rfl⟩
  | init32 _ | wrh32 _ | init128 _ | wrh128 _ _ => exact ⟨fun _ => rfl, fun _ => rfl, fun _ _ _ _ => rfl⟩
  | _ => cases h

/-! ### The obligations -/

/-- Settles O51: assembly byte by byte for the two lane widths, and the three fields as bytes 0 to 3, 0 to 7 and 8 to 15. -/
theorem assemblyIsLittleEndian : Obligations.AssemblyIsLittleEndian := by
  have hupper (w : Payload) : (Claims.payloadBytes w 16).drop 8 = (List.range' 8 8).map (byteAt w) := rfl
  refine ⟨fun bs i hi => byteAt_le 32 bs i (by omega), fun bs i hi => byteAt_le 64 bs i (by omega), fun w => ?_,
    fun w => ⟨?_, ?_⟩⟩
  · exact le_bytes_range' w 0 4
  · exact le_bytes_range' w 0 8
  · rw [hupper]
    exact le_bytes_range' w 8 8

/-- Settles O8: the step runs the presented word, and a word that decodes runs as its command. -/
theorem stepRunsDecodedCommand : Obligations.StepRunsDecodedCommand := by
  intro s c i hs hdecode _
  rw [step_of_presented_command hs, runCommand_of_ok hdecode, exec_eq]

/-- Settles O14, by cases on what is presented. -/
theorem everyStepCompletes : Obligations.EveryStepCompletes := by
  intro s
  obtain ⟨t, hstep, hnone⟩ := step_completes s
  refine ⟨⟨t, hstep⟩, fun u hu => ?_, step_of_presented_none⟩
  obtain rfl : t = u := by simpa [hstep] using hu
  exact hnone

/-- Settles O38: the commands of the first list keep the registers, those of the second are idempotent loads. -/
theorem readsArePureAndLoadsAreIdempotent : Obligations.ReadsArePureAndLoadsAreIdempotent := by
  refine ⟨fun i hi s => ?_, fun i hi s => ?_⟩
  · have hread : isRead i = true := by
      obtain hmem | ⟨total, rfl⟩ | ⟨form, total, rfl⟩ := hi
      · simp only [List.mem_cons, List.not_mem_nil, or_false] at hmem
        obtain rfl | rfl | rfl | rfl | rfl := hmem <;> rfl
      · rfl
      · rfl
    have hkeeps := keepsRegisters_of_isRead hread
    refine ⟨answerOf i s.bank32 s.bank128, ?_, ?_⟩
    · rw [exec_eq, after_of_keepsRegisters hkeeps]
    · rw [execList_cons, execList_cons, execList_nil, after_after_of_keepsRegisters hkeeps]
  · have hload : isLoad i = true := by
      obtain ⟨v, rfl | rfl | rfl | rfl⟩ | ⟨h1, h2, rfl⟩ | ⟨w, rfl⟩ := hi <;> rfl
    refine ⟨after i s, answerOf i s.bank32 s.bank128, exec_eq i s, after_responses i s, ?_⟩
    rw [exec_eq, after_after_of_isIdempotentLoad (isIdempotentLoad_of_isLoad hload)]

end Sys2Proof.Proofs
end

section
/-!
The command encoding: a word decodes exactly when it is a row of the opcode table, which the decoder reads and the encoder writes;
the beats of a byte string; where the run of a pseudo-command stops. The theorems that settle the obligations of 30_encoding.md stand
at the end.
-/

namespace Sys2Proof.Proofs

open Sys2Proof Sys2Proof.Machine

/-! ### Decoding is the opcode table, in both directions (R66, R68) -/

/-- The decoder finds every row of the table, whatever the payload: the converse of `row_of_decode_ok`. -/
theorem decode_of_row {c : Command} {i : Instr} (h : Row c i) : decode c = .ok i := by
  cases h with
  | push32 n w hn =>
    have hnb : n < 32 := by omega
    simp [decode, decodeNamed, fieldOp_commandWord, fieldVar_commandWord, fieldTr_commandWord, fieldNb_commandWord,
      fieldRsv_commandWord, hnb, hn]
  | push128 n w hn =>
    have hnb : n < 32 := by omega
    simp [decode, decodeNamed, fieldOp_commandWord, fieldVar_commandWord, fieldTr_commandWord, fieldNb_commandWord,
      fieldRsv_commandWord, hnb, hn]
  | result128 f w =>
    cases f <;> simp [decode, decodeNamed, trOfForm, formOfTr, fieldOp_commandWord, fieldVar_commandWord, fieldTr_commandWord,
      fieldNb_commandWord, fieldRsv_commandWord]
  | _ => simp [decode, decodeNamed, fieldOp, fieldVar, fieldTr, fieldNb, fieldRsv]

/-- A 32-bit operand is read back from the payload it was widened into. -/
theorem low32_setWidth (v : Word32) : (v.setWidth 128).extractLsb' 0 32 = v := by
  apply BitVec.eq_of_getLsbD_eq
  intro k hk
  simp [hk, show k < 128 by omega]

/-- The two lanes of a pair are read back from its payload. -/
theorem lanes64_append (hi lo : Word64) :
    (hi ++ lo : Payload).extractLsb' 0 64 = lo ∧ (hi ++ lo : Payload).extractLsb' 64 64 = hi := by
  constructor <;> apply BitVec.eq_of_getLsbD_eq <;> intro k hk <;> rw [BitVec.getLsbD_extractLsb', BitVec.getLsbD_append]
  · simp [hk]
  · simp [hk]

theorem row_congr {c : Command} {i j : Instr} (h : Row c i) (hij : i = j) : Row c j := hij ▸ h

/-- The encoding of a well-formed command lies in that command's row, with its operands where the row has them (R72). -/
theorem row_encode {i : Instr} (h : i.wellFormed = true) : Row (encode i) i := by
  cases i with
  | nop => exact .nop 0
  | init32 seed => exact row_congr (.init32 (seed.setWidth 128)) (by rw [low32_setWidth])
  | push32 bytes =>
    have hlen : bytes.length ≤ 4 := by simpa [Instr.wellFormed] using h
    exact row_congr (.push32 bytes.length (le 128 bytes) hlen) (by rw [lanes_le bytes (by omega)])
  | result32 total => exact row_congr (.result32 (total.setWidth 128)) (by rw [low32_setWidth])
  | rdh32 => exact .rdh32 0
  | rdc32 => exact .rdc32 0
  | wrh32 v => exact row_congr (.wrh32 (v.setWidth 128)) (by rw [low32_setWidth])
  | wrc32 w => exact row_congr (.wrc32 (w.setWidth 128)) (by rw [low32_setWidth])
  | init128 seed => exact row_congr (.init128 (seed.setWidth 128)) (by rw [low32_setWidth])
  | push128 bytes =>
    have hlen : bytes.length ≤ 16 := by simpa [Instr.wellFormed] using h
    exact row_congr (.push128 bytes.length (le 128 bytes) hlen) (by rw [lanes_le bytes hlen])
  | result128 f total => exact row_congr (.result128 f (total.setWidth 128)) (by rw [low32_setWidth])
  | rdh128 => exact .rdh128 0
  | rdc128 => exact .rdc128 0
  | wrh128 h1 h2 =>
    obtain ⟨hlow, hhigh⟩ := lanes64_append h2 h1
    exact row_congr (.wrh128 (h2 ++ h1)) (by rw [hlow, hhigh])
  | wrc128 w => exact .wrc128 w

theorem wellFormed_of_row {c : Command} {i : Instr} (h : Row c i) : i.wellFormed = true := by
  cases h with
  | push32 n w hn => simpa [Instr.wellFormed] using hn
  | push128 n w hn => simpa [Instr.wellFormed] using hn
  | _ => rfl

/-- A row's command has no other word than the row's (R61). -/
theorem encode_cmd_of_row {c : Command} {i : Instr} (h : Row c i) : (encode i).cmd = c.cmd := by
  cases h with
  | push32 n w hn => simp [encode]
  | push128 n w hn => simp [encode]
  | _ => rfl

/-! ### The match and the mask of a row (R68) -/

/-- A well-formed command's word has the fixed bits of its row, for each command. -/
theorem encode_masked {i : Instr} (h : i.wellFormed = true) :
    (encode i).cmd &&& Laws.EncodesInRow.rowMask i = Laws.EncodesInRow.rowMatch i := by
  cases i with
  | push32 bytes => exact Laws.EncodesInRow.push32 bytes h
  | push128 bytes => exact Laws.EncodesInRow.push128 bytes h
  | result128 f total => exact Laws.EncodesInRow.result128 f total h
  | _ => exact BitVec.and_allOnes

/-- A word that decodes has the fixed bits of the row it decodes to. -/
theorem masked_of_decode {c : Command} {i : Instr} (h : decode c = .ok i) :
    c.cmd &&& Laws.EncodesInRow.rowMask i = Laws.EncodesInRow.rowMatch i := by
  have hrow := row_of_decode_ok h
  rw [← encode_cmd_of_row hrow]
  exact encode_masked (wellFormed_of_row hrow)

/-- A mask of all ones leaves one word, so a row with such a mask decodes at that word alone. -/
theorem decode_of_full_mask {c : Command} {v : Word32} {i : Instr} (h : c.cmd &&& 0xFFFFFFFF = v)
    (hrow : Row ⟨v, c.wdata⟩ i) : decode c = .ok i := by
  have hcmd : c.cmd = v := BitVec.and_allOnes.symm.trans h
  subst hcmd
  exact decode_of_row hrow

/-- A field that the mask covers has the value that the match gives it. -/
theorem extractLsb'_of_masked {c mask v : Word32} (h : c &&& mask = v) (start len : Nat)
    (hmask : mask.extractLsb' start len = BitVec.allOnes len) : c.extractLsb' start len = v.extractLsb' start len := by
  rw [← h, BitVec.extractLsb'_and, hmask, BitVec.and_allOnes]

/-- A word whose fields other than `NB` are those of a PUSH row is that row's word for its `NB`. -/
theorem eq_push_word_of_masked {c v : Word32} (h : c &&& 0xFFFFE0FF = v) {op var : Nat} (hop : fieldOp v = op)
    (hvar : fieldVar v = var) (htr : fieldTr v = 0) (hrsv : fieldRsv v = 0) : c = commandWord op var 0 (fieldNb c) := by
  have hfield := extractLsb'_of_masked h
  rw [fieldOp, ← hfield 0 4 (by decide), ← fieldOp] at hop
  rw [fieldVar, ← hfield 4 2 (by decide), ← fieldVar] at hvar
  rw [fieldTr, ← hfield 6 2 (by decide), ← fieldTr] at htr
  rw [fieldRsv, ← hfield 13 19 (by decide), ← fieldRsv] at hrsv
  have hword := commandWord_of_fields c hrsv
  rwa [hop, hvar, htr] at hword

/-- A word whose fields other than `TR` are those of the RESULT128 row is that row's word for its `TR`. -/
theorem eq_result_word_of_masked {c v : Word32} (h : c &&& 0xFFFFFF3F = v) {op var : Nat} (hop : fieldOp v = op)
    (hvar : fieldVar v = var) (hnb : fieldNb v = 0) (hrsv : fieldRsv v = 0) : c = commandWord op var (fieldTr c) 0 := by
  have hfield := extractLsb'_of_masked h
  rw [fieldOp, ← hfield 0 4 (by decide), ← fieldOp] at hop
  rw [fieldVar, ← hfield 4 2 (by decide), ← fieldVar] at hvar
  rw [fieldNb, ← hfield 8 5 (by decide), ← fieldNb] at hnb
  rw [fieldRsv, ← hfield 13 19 (by decide), ← fieldRsv] at hrsv
  have hword := commandWord_of_fields c hrsv
  rwa [hop, hvar, hnb] at hword

theorem trOfForm_lt (f : DigestForm) : trOfForm f < 4 := by
  cases f <;> decide

/-- The row PUSH32: the fixed bits, and `NB` from 0 to 4, which is the number of bytes. -/
theorem decode_push32_iff (c : Command) (n : Nat) :
    (∃ bs, decode c = .ok (.push32 bs) ∧ bs.length = n) ↔
      c.cmd &&& 0xFFFFE0FF = 0x00000002 ∧ fieldNb c.cmd = n ∧ n ≤ 4 := by
  constructor
  · rintro ⟨bs, hdecode, rfl⟩
    refine ⟨masked_of_decode hdecode, ?_⟩
    cases row_of_decode_ok hdecode with
    | push32 n w hn => exact ⟨by rw [fieldNb_commandWord 2 0 0 (by omega), length_lanes], by rwa [length_lanes]⟩
  · rintro ⟨hmask, rfl, hn⟩
    obtain ⟨cmd, w⟩ := c
    have hrow := Row.push32 (fieldNb cmd) w hn
    rw [← eq_push_word_of_masked hmask (by decide) (by decide) (by decide) (by decide)] at hrow
    exact ⟨_, decode_of_row hrow, length_lanes _ _⟩

/-- The row PUSH128: the fixed bits, and `NB` from 0 to 16, which is the number of bytes. -/
theorem decode_push128_iff (c : Command) (n : Nat) :
    (∃ bs, decode c = .ok (.push128 bs) ∧ bs.length = n) ↔
      c.cmd &&& 0xFFFFE0FF = 0x00000012 ∧ fieldNb c.cmd = n ∧ n ≤ 16 := by
  constructor
  · rintro ⟨bs, hdecode, rfl⟩
    refine ⟨masked_of_decode hdecode, ?_⟩
    cases row_of_decode_ok hdecode with
    | push128 n w hn => exact ⟨by rw [fieldNb_commandWord 2 1 0 (by omega), length_lanes], by rwa [length_lanes]⟩
  · rintro ⟨hmask, rfl, hn⟩
    obtain ⟨cmd, w⟩ := c
    have hrow := Row.push128 (fieldNb cmd) w hn
    rw [← eq_push_word_of_masked hmask (by decide) (by decide) (by decide) (by decide)] at hrow
    exact ⟨_, decode_of_row hrow, length_lanes _ _⟩

/-- The row RESULT128: the fixed bits, and `TR` is the digest form. -/
theorem decode_result128_iff (c : Command) (f : DigestForm) :
    (∃ v, decode c = .ok (.result128 f v)) ↔ c.cmd &&& 0xFFFFFF3F = 0x00000013 ∧ fieldTr c.cmd = trOfForm f := by
  constructor
  · rintro ⟨v, hdecode⟩
    refine ⟨masked_of_decode hdecode, ?_⟩
    cases row_of_decode_ok hdecode with
    | result128 f w => exact fieldTr_commandWord 3 1 0 (trOfForm_lt f)
  · rintro ⟨hmask, htr⟩
    obtain ⟨cmd, w⟩ := c
    have hrow := Row.result128 f w
    rw [← htr, ← eq_result_word_of_masked hmask (by decide) (by decide) (by decide) (by decide)] at hrow
    exact ⟨_, decode_of_row hrow⟩

/-! ### The words of the rows with a free field, as numbers (R68) -/

theorem push32_word {n : Nat} (h : n ≤ 4) : commandWord 2 0 0 n = BitVec.ofNat 32 (0x00000002 + 0x100 * n) := by
  interval_cases n <;> decide

theorem push128_word {n : Nat} (h : n ≤ 16) : commandWord 2 1 0 n = BitVec.ofNat 32 (0x00000012 + 0x100 * n) := by
  interval_cases n <;> decide

theorem result128_word (f : DigestForm) : commandWord 3 1 (trOfForm f) 0 = BitVec.ofNat 32 (0x00000013 + 0x40 * trOfForm f) := by
  cases f <;> decide

/-- The three words of RESULT128, each its own digest form (R64). -/
theorem decode_result128_word (f : DigestForm) (w : Payload) :
    decode ⟨BitVec.ofNat 32 (0x00000013 + 0x40 * trOfForm f), w⟩ = .ok (.result128 f (w.extractLsb' 0 32)) := by
  rw [← result128_word]
  exact decode_of_row (.result128 f w)

/-! ### The reserved and illegal words (R69, R161) -/

/-- R69's conditions over the fields of the word, as numbers. -/
theorem reservedOrIllegal_iff (c : Word32) : Claims.reservedOrIllegal c ↔
    fieldRsv c ≠ 0 ∨ 8 ≤ fieldOp c ∨ 2 ≤ fieldVar c ∨ (fieldOp c = 0 ∧ (fieldVar c ≠ 0 ∨ fieldTr c ≠ 0 ∨ fieldNb c ≠ 0)) ∨
    (fieldOp c ≠ 2 ∧ fieldNb c ≠ 0) ∨ (fieldOp c = 2 ∧ fieldVar c = 0 ∧ 4 < fieldNb c) ∨
    (fieldOp c = 2 ∧ fieldVar c = 1 ∧ 16 < fieldNb c) ∨ (fieldTr c ≠ 0 ∧ ¬(fieldOp c = 3 ∧ fieldVar c = 1)) ∨ fieldTr c = 3 := by
  simp only [Claims.reservedOrIllegal, fieldRsv, fieldOp, fieldVar, fieldTr, fieldNb, ne_eq, ← BitVec.toNat_inj,
    BitVec.toNat_ofNat, BitVec.ofNat_eq_ofNat, Nat.reducePow, Nat.reduceMod]

/-- Past the tests of R68, the pair `(OP, VAR)` names a command. -/
theorem decodeNamed_ne_illegal {op var : Nat} (tr nb : Nat) (w : Payload) (why : Illegal) (hop : op < 8) (hop0 : op ≠ 0)
    (hvar : var < 2) : decodeNamed op var tr nb w ≠ .illegal why := by
  interval_cases op <;> interval_cases var <;> simp_all [decodeNamed]

/-- Each test of R68 that rejects a word is a condition of R69. -/
theorem reservedOrIllegal_of_decode_illegal {c : Command} {why : Illegal} (h : decode c = .illegal why) :
    Claims.reservedOrIllegal c.cmd := by
  rw [reservedOrIllegal_iff]
  simp only [decode, Config.block32, Config.block128] at h
  by_contra hlegal
  simp only [not_or] at hlegal
  obtain ⟨hrsv, hop, hvar, hnop, hnb, hnb32, hnb128, htr, htr3⟩ := hlegal
  rw [if_neg hrsv, if_neg hop, if_neg hvar] at h
  by_cases hop0 : fieldOp c.cmd = 0
  · rw [if_pos hop0, if_pos (by omega)] at h
    cases h
  · rw [if_neg hop0, if_neg hnb, if_neg htr, if_neg htr3, if_neg hnb32, if_neg hnb128] at h
    exact decodeNamed_ne_illegal _ _ _ _ (by omega) hop0 (by omega) h

/-- Every row's words are in the list of R68. -/
theorem mem_legalWords_of_row {c : Command} {i : Instr} (h : Row c i) : c.cmd ∈ Claims.legalWords := by
  cases h with
  | push32 n w hn => dsimp only; interval_cases n <;> decide
  | push128 n w hn => dsimp only; interval_cases n <;> decide
  | result128 f w => dsimp only; cases f <;> decide
  | _ => dsimp only; decide

theorem not_reservedOrIllegal_of_mem_legalWords {v : Word32} (h : v ∈ Claims.legalWords) : ¬ Claims.reservedOrIllegal v := by
  rw [reservedOrIllegal_iff]
  fin_cases h <;> decide

/-- No row of the table meets a condition of R69. -/
theorem not_reservedOrIllegal_of_row {c : Command} {i : Instr} (h : Row c i) : ¬ Claims.reservedOrIllegal c.cmd :=
  not_reservedOrIllegal_of_mem_legalWords (mem_legalWords_of_row h)

/-- A word is rejected exactly when a condition of R69 holds of it, whatever the payload. -/
theorem decode_illegal_iff (c : Command) : (∃ why, decode c = .illegal why) ↔ Claims.reservedOrIllegal c.cmd := by
  refine ⟨fun ⟨why, h⟩ => reservedOrIllegal_of_decode_illegal h, fun hbad => ?_⟩
  cases h : decode c with
  | ok i => exact absurd hbad (not_reservedOrIllegal_of_row (row_of_decode_ok h))
  | illegal why => exact ⟨why, rfl⟩

/-- A word decodes exactly when no condition of R69 holds of it, whatever the payload. -/
theorem decode_ok_iff (c : Command) : (∃ i, decode c = .ok i) ↔ ¬ Claims.reservedOrIllegal c.cmd := by
  rw [← decode_illegal_iff]
  cases decode c <;> simp

/-- No command rule answers `ILLEGAL_COMMAND`. -/
theorem answerOf_status_ne_illegalCommand (i : Instr) (b : Bank32) (d : Bank128) :
    (answerOf i b d).status ≠ .illegalCommand := by
  cases i with
  | result32 _ | wrc32 _ | result128 _ _ | wrc128 _ =>
    simp only [answerOf, checked]
    split <;> simp
  | _ => simp [answerOf]

/-- What a word answers that a condition of R69 holds of (R161). -/
theorem runCommand_of_reservedOrIllegal {c : Command} (h : Claims.reservedOrIllegal c.cmd) (s : State) :
    runCommand c s = Claims.onlyAnswers s .illegalCommand 0 := by
  obtain ⟨why, hdecode⟩ := (decode_illegal_iff c).mpr h
  exact runCommand_of_illegal hdecode s

/-! ### The beats of a byte string (R73) -/

theorem beats_nil (W : Nat) : beats W [] = [[]] := rfl

theorem beats_of_ne_nil (W : Nat) {B : List Byte} (h : B ≠ []) :
    beats W B = (List.range ((B.length + W - 1) / W)).map fun j => (B.drop (W * j)).take W := by
  rw [beats, if_neg (by simpa using h)]

theorem length_beats {W : Nat} (hW : 0 < W) (B : List Byte) : (beats W B).length = max 1 ((B.length + W - 1) / W) := by
  by_cases hB : B = []
  · subst hB
    simp [beats_nil, Nat.div_eq_of_lt (show W - 1 < W by omega)]
  · have hpos : 0 < B.length := List.length_pos_iff.mpr hB
    have : 1 ≤ (B.length + W - 1) / W := (Nat.one_le_div_iff hW).mpr (by omega)
    simp only [beats_of_ne_nil W hB, List.length_map, List.length_range]
    omega

/-- Beat `j` is the bytes from `W*j` on, at most `W` of them. -/
theorem getElem?_beats {W : Nat} {B : List Byte} {j : Nat} (hj : j < (beats W B).length) :
    (beats W B)[j]? = some ((B.drop (W * j)).take W) := by
  by_cases hB : B = []
  · subst hB
    obtain rfl : j = 0 := by simpa [beats_nil] using hj
    simp [beats_nil]
  · simp only [beats_of_ne_nil W hB, List.length_map, List.length_range] at hj ⊢
    simp [hj]

theorem length_le_of_mem_beats {W : Nat} {B bs : List Byte} (h : bs ∈ beats W B) : bs.length ≤ W := by
  obtain ⟨j, hj⟩ := List.getElem?_of_mem h
  have hlt : j < (beats W B).length := (List.getElem?_eq_some_iff.mp hj).1
  rw [getElem?_beats hlt] at hj
  cases hj
  exact List.length_take_le _ _

/-- The first `m` chunks of a byte string are its first `W * m` bytes. -/
theorem flatten_chunks (W m : Nat) (B : List Byte) :
    ((List.range m).map fun j => (B.drop (W * j)).take W).flatten = B.take (W * m) := by
  induction m with
  | zero => simp
  | succ m ih => simp [List.range_succ, ih, Nat.mul_succ, List.take_add]

/-- The beats carry the byte string in order. -/
theorem flatten_beats {W : Nat} (hW : 0 < W) (B : List Byte) : (beats W B).flatten = B := by
  by_cases hB : B = []
  · subst hB
    rfl
  · rw [beats_of_ne_nil W hB, flatten_chunks]
    apply List.take_of_length_le
    have := Nat.lt_mul_div_succ (B.length + W - 1) hW
    rw [Nat.mul_succ] at this
    omega

/-- Every beat but the last is full. -/
theorem full_of_not_last {W : Nat} (hW : 0 < W) {B : List Byte} {j : Nat} (hj : j + 1 < (beats W B).length) :
    W * j + W ≤ B.length := by
  rw [length_beats hW] at hj
  have hdiv : j + 2 ≤ (B.length + W - 1) / W := by omega
  have := (Nat.le_div_iff_mul_le hW).mp hdiv
  rw [Nat.add_mul, Nat.mul_comm j W] at this
  omega

/-- The expansion `is` of PROCESS over beats of `W` bytes, `push` the command of a beat and `fed` the bytes it carries (R73). -/
structure IsProcess (W : Nat) (push : List Byte → Instr) (fed : Instr → List Byte) (B : List Byte) (is : List Instr) :
    Prop where
  legal : ∀ i ∈ is, ∃ bs, i = push bs ∧ bs.length ≤ W ∧ i.wellFormed = true
  carries : (is.map fed).flatten = B
  count : is.length = max 1 ((B.length + W - 1) / W)
  beat : ∀ j, j < is.length → is[j]? = some (push ((B.drop (W * j)).take W))
  full : ∀ j, j + 1 < is.length → W * j + W ≤ B.length

/-- One argument for both banks: it needs only that `fed` reads a beat back, and that a beat of at most `W` bytes is legal. -/
theorem isProcess_map_beats {W : Nat} (hW : 0 < W) {push : List Byte → Instr} {fed : Instr → List Byte}
    (hfed : ∀ bs, fed (push bs) = bs) (hlegal : ∀ bs, bs.length ≤ W → (push bs).wellFormed = true) (B : List Byte) :
    IsProcess W push fed B ((beats W B).map push) where
  legal := by
    intro i hi
    obtain ⟨bs, hbs, rfl⟩ := List.mem_map.mp hi
    have hlen := length_le_of_mem_beats hbs
    exact ⟨bs, rfl, hlen, hlegal bs hlen⟩
  carries := by
    have hid : fed ∘ push = id := funext hfed
    rw [List.map_map, hid, List.map_id, flatten_beats hW]
  count := by rw [List.length_map, length_beats hW]
  beat := by
    intro j hj
    rw [List.length_map] at hj
    rw [List.getElem?_map, getElem?_beats hj, Option.map_some]
  full := by
    intro j hj
    rw [List.length_map] at hj
    exact full_of_not_last hW hj

theorem isProcess_process32 (B : List Byte) : IsProcess 4 .push32 Claims.fed32 B (process32 B) :=
  isProcess_map_beats (by decide) (fun _ => rfl) (fun bs h => by simpa [Instr.wellFormed] using h) B

theorem isProcess_process128 (B : List Byte) : IsProcess 16 .push128 Claims.fed128 B (process128 B) :=
  isProcess_map_beats (by decide) (fun _ => rfl) (fun bs h => by simpa [Instr.wellFormed] using h) B

/-! ### Where a pseudo-command stops (R73) -/

/-- The command is a WRC whose image is malformed (R25, R27). -/
def LoadsBadCarry : Instr → Prop
  | .wrc32 w => unpack32 w = none
  | .wrc128 w => unpack128 w = none
  | _ => False

/-- Those commands, and no others, are answered with `INVALID_CARRY` (R162). -/
theorem answerOf_status_eq_invalidCarry_iff (i : Instr) (b : Bank32) (d : Bank128) :
    (answerOf i b d).status = .invalidCarry ↔ LoadsBadCarry i := by
  cases i with
  | wrc32 w => cases h : unpack32 w <;> simp [answerOf, checked, LoadsBadCarry, h]
  | wrc128 w => cases h : unpack128 w <;> simp [answerOf, checked, LoadsBadCarry, h]
  | result32 _ | result128 _ _ =>
    simp only [answerOf, checked, LoadsBadCarry]
    split <;> simp
  | _ => simp [answerOf, LoadsBadCarry]

/-- A malformed carry ends the run of a pseudo-command. -/
theorem runPseudo_cons_of_bad {i : Instr} (h : LoadsBadCarry i) (is : List Instr) (s : State) :
    runPseudo (i :: is) s = .next (after i s) := by
  simp [(answerOf_status_eq_invalidCarry_iff i _ _).mpr h]

/-- After any other command the run goes on. -/
theorem runPseudo_cons_of_not_bad {i : Instr} (h : ¬ LoadsBadCarry i) (is : List Instr) (s : State) :
    runPseudo (i :: is) s = runPseudo is (after i s) := by
  simp [mt (answerOf_status_eq_invalidCarry_iff i _ _).mp h]

/-- With no malformed carry in it, a pseudo-command runs its whole expansion. -/
theorem runPseudo_eq_execList {is : List Instr} (h : ∀ i ∈ is, ¬ LoadsBadCarry i) (s : State) :
    runPseudo is s = execList is s := by
  induction is generalizing s with
  | nil => rfl
  | cons i is ih =>
    obtain ⟨hi, his⟩ := List.forall_mem_cons.mp h
    rw [runPseudo_cons_of_not_bad hi, ih his, execList_cons]

theorem not_loadsBadCarry_process32 (B : List Byte) : ∀ i ∈ process32 B, ¬ LoadsBadCarry i := by
  intro i hi
  obtain ⟨bs, rfl, -⟩ := (isProcess_process32 B).legal i hi
  exact id

theorem not_loadsBadCarry_process128 (B : List Byte) : ∀ i ∈ process128 B, ¬ LoadsBadCarry i := by
  intro i hi
  obtain ⟨bs, rfl, -⟩ := (isProcess_process128 B).legal i hi
  exact id

theorem not_loadsBadCarry_process32_save (B : List Byte) : ∀ i ∈ process32 B ++ save32, ¬ LoadsBadCarry i := by
  simpa [save32, LoadsBadCarry, or_imp, forall_and] using not_loadsBadCarry_process32 B

theorem not_loadsBadCarry_process128_save (B : List Byte) : ∀ i ∈ process128 B ++ save128, ¬ LoadsBadCarry i := by
  simpa [save128, LoadsBadCarry, or_imp, forall_and] using not_loadsBadCarry_process128 B

/-- WRC32 is malformed from marker 4 on. -/
theorem loadsBadCarry_wrc32_iff (w : Word32) : LoadsBadCarry (.wrc32 w) ↔ 4 ≤ (w.extractLsb' 0 8).toNat :=
  unpack32_eq_none_iff w

/-- WRC128 is malformed from marker 16 on, and the marker is the low byte of `c2`. -/
theorem loadsBadCarry_wrc128_iff (c1 c2 : Word64) :
    LoadsBadCarry (.wrc128 (pair c1 c2)) ↔ 16 ≤ (c2.extractLsb' 0 8).toNat := by
  have hmarker : byteAt (pair c1 c2) 8 = c2.extractLsb' 0 8 := byteAt_append c2 c1 8
  rw [← hmarker]
  exact unpack128_eq_none_iff _

/-- A RESTORE32 with a malformed carry ends the run, whatever follows it: the lane is loaded and the carry is not. -/
theorem runPseudo_restore32_of_bad (h : Word32) {w : Word32} (hbad : LoadsBadCarry (.wrc32 w)) (rest : List Instr) (s : State) :
    runPseudo (restore32 h w ++ rest) s =
      .next { s with bank32 := { s.bank32 with h := h }, responses := s.responses ++ [⟨.ok, 0⟩, ⟨.invalidCarry, 0⟩] } := by
  have hnone : unpack32 w = none := hbad
  calc runPseudo (restore32 h w ++ rest) s
      = runPseudo (.wrc32 w :: rest) (after (.wrh32 h) s) := runPseudo_cons_of_not_bad id _ s
    _ = .next (after (.wrc32 w) (after (.wrh32 h) s)) := runPseudo_cons_of_bad hbad _ _
    _ = _ := by simp [after, bank32After, bank128After, answerOf, loadCarry32, checked, hnone]

/-- A RESTORE128 with a malformed carry ends the run, whatever follows it: the lanes are loaded and the carry is not. -/
theorem runPseudo_restore128_of_bad (h1 h2 : Word64) {c1 c2 : Word64} (hbad : LoadsBadCarry (.wrc128 (pair c1 c2)))
    (rest : List Instr) (s : State) :
    runPseudo (restore128 h1 h2 c1 c2 ++ rest) s =
      .next { s with bank128 := { s.bank128 with h1 := h1, h2 := h2 },
                     responses := s.responses ++ [⟨.ok, 0⟩, ⟨.invalidCarry, 0⟩] } := by
  have hnone : unpack128 (pair c1 c2) = none := hbad
  calc runPseudo (restore128 h1 h2 c1 c2 ++ rest) s
      = runPseudo (.wrc128 (pair c1 c2) :: rest) (after (.wrh128 h1 h2) s) := runPseudo_cons_of_not_bad id _ s
    _ = .next (after (.wrc128 (pair c1 c2)) (after (.wrh128 h1 h2) s)) := runPseudo_cons_of_bad hbad _ _
    _ = _ := by simp [after, bank32After, bank128After, answerOf, loadCarry128, checked, hnone]

/-- A RESTORE32 with a carry in range does not stop the commands after it, if none of them loads a malformed one. -/
theorem runPseudo_restore32_of_good (h : Word32) {w : Word32} (hgood : ¬ LoadsBadCarry (.wrc32 w)) {rest : List Instr}
    (hrest : ∀ i ∈ rest, ¬ LoadsBadCarry i) (s : State) :
    runPseudo (restore32 h w ++ rest) s = execList (restore32 h w ++ rest) s :=
  runPseudo_eq_execList (List.forall_mem_cons.mpr ⟨id, List.forall_mem_cons.mpr ⟨hgood, hrest⟩⟩) s

/-- A RESTORE128 with a carry in range does not stop the commands after it, if none of them loads a malformed one. -/
theorem runPseudo_restore128_of_good (h1 h2 : Word64) {c1 c2 : Word64} (hgood : ¬ LoadsBadCarry (.wrc128 (pair c1 c2)))
    {rest : List Instr} (hrest : ∀ i ∈ rest, ¬ LoadsBadCarry i) (s : State) :
    runPseudo (restore128 h1 h2 c1 c2 ++ rest) s = execList (restore128 h1 h2 c1 c2 ++ rest) s :=
  runPseudo_eq_execList (List.forall_mem_cons.mpr ⟨id, List.forall_mem_cons.mpr ⟨hgood, hrest⟩⟩) s

/-! ### The obligations -/

/-- Settles O1: the encoding lies in the command's row, and the decoder finds every row. -/
theorem decodeEncodeRoundTrip : Obligations.DecodeEncodeRoundTrip :=
  fun _ h => decode_of_row (row_encode h)

/-- Settles O2, row by row. -/
theorem decodedCommandHasOneWord : Obligations.DecodedCommandHasOneWord :=
  fun _ _ h => ⟨wellFormed_of_row (row_of_decode_ok h), encode_cmd_of_row (row_of_decode_ok h)⟩

/-- Settles O3: a decoded word has its row's fixed bits; a row without a free field has one word, and the three rows with one have
a word for each of its values. -/
theorem mnemonicsFollowOpcodeTable : Obligations.MnemonicsFollowOpcodeTable := by
  intro c
  refine ⟨?nop, ?init32, decode_push32_iff c, ?result32, ?rdh32, ?rdc32, ?wrh32, ?wrc32, ?init128, decode_push128_iff c,
    ?result128, ?rdh128, ?rdc128, ?wrh128, ?wrc128⟩
  case nop => exact ⟨masked_of_decode, fun h => decode_of_full_mask h (.nop _)⟩
  case init32 => exact ⟨fun ⟨_, h⟩ => masked_of_decode h, fun h => ⟨_, decode_of_full_mask h (.init32 _)⟩⟩
  case result32 => exact ⟨fun ⟨_, h⟩ => masked_of_decode h, fun h => ⟨_, decode_of_full_mask h (.result32 _)⟩⟩
  case rdh32 => exact ⟨masked_of_decode, fun h => decode_of_full_mask h (.rdh32 _)⟩
  case rdc32 => exact ⟨masked_of_decode, fun h => decode_of_full_mask h (.rdc32 _)⟩
  case wrh32 => exact ⟨fun ⟨_, h⟩ => masked_of_decode h, fun h => ⟨_, decode_of_full_mask h (.wrh32 _)⟩⟩
  case wrc32 => exact ⟨fun ⟨_, h⟩ => masked_of_decode h, fun h => ⟨_, decode_of_full_mask h (.wrc32 _)⟩⟩
  case init128 => exact ⟨fun ⟨_, h⟩ => masked_of_decode h, fun h => ⟨_, decode_of_full_mask h (.init128 _)⟩⟩
  case result128 =>
    exact fun f => (decode_result128_iff c f).trans (by cases f <;> rfl)
  case rdh128 => exact ⟨masked_of_decode, fun h => decode_of_full_mask h (.rdh128 _)⟩
  case rdc128 => exact ⟨masked_of_decode, fun h => decode_of_full_mask h (.rdc128 _)⟩
  case wrh128 => exact ⟨fun ⟨_, _, h⟩ => masked_of_decode h, fun h => ⟨_, _, decode_of_full_mask h (.wrh128 _)⟩⟩
  case wrc128 => exact ⟨fun ⟨_, h⟩ => masked_of_decode h, fun h => ⟨_, decode_of_full_mask h (.wrc128 _)⟩⟩

/-- Settles O4: every row's words are in the list, and no word of the list meets a condition of R69. -/
theorem legalWordsAreThirtySeven : Obligations.LegalWordsAreThirtySeven := by
  refine ⟨rfl, by decide, fun c => ⟨fun ⟨_, h⟩ => mem_legalWords_of_row (row_of_decode_ok h), fun hmem => ?_⟩⟩
  exact (decode_ok_iff c).mpr (not_reservedOrIllegal_of_mem_legalWords hmem)

/-- Settles O7: the decoder rejects exactly the words of R69, and no command rule answers `ILLEGAL_COMMAND`. -/
theorem illegalWordsAreAnsweredAndChangeNothing : Obligations.IllegalWordsAreAnsweredAndChangeNothing := by
  intro c s
  refine ⟨fun hbad => runCommand_of_reservedOrIllegal hbad s, fun hgood t r hrun hresp => ?_, fun hbad hs => ?_⟩
  · obtain ⟨i, hdecode⟩ := (decode_ok_iff c).mpr hgood
    obtain rfl : after i s = t := by simpa [runCommand_of_ok hdecode] using hrun
    obtain rfl : answerOf i s.bank32 s.bank128 = r := by simpa using hresp
    exact answerOf_status_ne_illegalCommand i _ _
  · rw [step_of_presented_command hs]
    exact runCommand_of_reservedOrIllegal hbad _

/-- Settles O48: PROCESS of either bank is its beats, each under that bank's PUSH. -/
theorem processBeatsCarryTheString : Obligations.ProcessBeatsCarryTheString := by
  refine ⟨⟨rfl, rfl⟩, fun B => ?_⟩
  obtain ⟨hlegal32, hcarries32, hcount32, hbeat32, hfull32⟩ := isProcess_process32 B
  obtain ⟨hlegal128, hcarries128, hcount128, hbeat128, hfull128⟩ := isProcess_process128 B
  exact ⟨⟨hlegal32, hcarries32, hcount32, hbeat32, hfull32⟩, ⟨hlegal128, hcarries128, hcount128, hbeat128, hfull128⟩⟩

/-- Settles O49: the run stops at the malformed carry of a RESTORE, and a WRC with one is the only command it stops at. -/
theorem pseudoCommandStopsAtABadCarry : Obligations.PseudoCommandStopsAtABadCarry := by
  refine ⟨fun h carry total B s => ⟨fun hmarker => ?bad32, fun hmarker => ?good32⟩,
    fun h0 h1 carry0 carry1 total B s => ⟨fun hmarker => ?bad128, fun hmarker => ?good128⟩, fun seed form B s => ?whole⟩
  case bad32 =>
    have hstop := fun rest => runPseudo_restore32_of_bad h ((loadsBadCarry_wrc32_iff carry).mpr hmarker) rest s
    refine ⟨hstop [], ?_, hstop [.result32 total]⟩
    rw [incrementalProcess32, List.append_assoc]
    exact hstop _
  case good32 =>
    have hrun := fun rest => runPseudo_restore32_of_good h (mt (loadsBadCarry_wrc32_iff carry).mp (by omega)) (rest := rest)
    refine ⟨hrun [] (by simp) s, ?_, hrun [.result32 total] (by simp [LoadsBadCarry]) s⟩
    rw [incrementalProcess32, List.append_assoc, hrun _ (not_loadsBadCarry_process32_save B), ← List.append_assoc]
    rfl
  case bad128 =>
    have hstop := fun rest => runPseudo_restore128_of_bad h0 h1 ((loadsBadCarry_wrc128_iff carry0 carry1).mpr hmarker) rest s
    refine ⟨hstop [], ?_, hstop [.result128 .full total]⟩
    rw [incrementalProcess128, List.append_assoc]
    exact hstop _
  case good128 =>
    have hrun := fun rest =>
      runPseudo_restore128_of_good h0 h1 (mt (loadsBadCarry_wrc128_iff carry0 carry1).mp (by omega)) (rest := rest)
    refine ⟨hrun [] (by simp) s, ?_, hrun [.result128 .full total] (by simp [LoadsBadCarry]) s⟩
    rw [incrementalProcess128, List.append_assoc, hrun _ (not_loadsBadCarry_process128_save B), ← List.append_assoc]
    rfl
  case whole =>
    refine ⟨runPseudo_eq_execList (not_loadsBadCarry_process32 B) s, runPseudo_eq_execList (not_loadsBadCarry_process128 B) s,
      runPseudo_eq_execList ?_ s, runPseudo_eq_execList ?_ s, runPseudo_eq_execList ?_ s, runPseudo_eq_execList ?_ s⟩
    · simpa [hash32, LoadsBadCarry, or_imp, forall_and] using not_loadsBadCarry_process32 B
    · simpa [hash128, LoadsBadCarry, or_imp, forall_and] using not_loadsBadCarry_process128 B
    · simp [save32, LoadsBadCarry]
    · simp [save128, LoadsBadCarry]

/-- Settles O5: each word is a row's, and the row has its operands at their payload bits. -/
theorem operandsComeFromTheirPayloadBits : Obligations.OperandsComeFromTheirPayloadBits := by
  refine ⟨fun w => decode_of_row (.nop w), fun w => decode_of_row (.init32 w), fun w => decode_of_row (.init128 w),
    fun n w hn => ?push32, fun n w hn => ?push128, fun w => decode_of_row (.result32 w),
    fun w => decode_result128_word .full w, fun w => decode_result128_word .first8 w, fun w => decode_result128_word .first4 w,
    fun w => decode_of_row (.rdh32 w), fun w => decode_of_row (.rdc32 w), fun w => decode_of_row (.rdh128 w),
    fun w => decode_of_row (.rdc128 w), fun w => decode_of_row (.wrh32 w), fun w => decode_of_row (.wrc32 w),
    fun w => decode_of_row (.wrh128 w), fun w => decode_of_row (.wrc128 w), fun seed s => ?seeds⟩
  case push32 =>
    rw [← push32_word hn]
    exact decode_of_row (.push32 n w hn)
  case push128 =>
    rw [← push128_word hn]
    exact decode_of_row (.push128 n w hn)
  case seeds =>
    have hwidened : seed.setWidth 64 = BitVec.ofNat 64 seed.toNat := (BitVec.ofNat_toNat 64 seed).symm
    exact ⟨after (.init128 seed) s, exec_eq _ _, hwidened, hwidened⟩

/-- Settles O6, by evaluation. -/
theorem sampleWordsDecode : Obligations.SampleWordsDecode := by
  refine ⟨?_, ?_, ?_, ?_, ?_⟩ <;> decide

/-- Settles O31, code by code. -/
theorem statusCodesMarkTheSourcesErrors : Obligations.StatusCodesMarkTheSourcesErrors := by
  refine ⟨rfl, rfl, rfl, rfl, fun st => ?_⟩
  cases st <;> decide

end Sys2Proof.Proofs
end

section
/-!
The datapath: rotation bit by bit, the steps every datapath function is made of and why each loses nothing, the tail fold
without its tests on the count, and the stream that bank 128 reads. The theorems that settle the obligations of
40_arith_primitives.md stand at the end.
-/

namespace Sys2Proof.Proofs

open Sys2Proof Sys2Proof.Machine

/-! ### Rotation (R91, R92) -/

/-- The rotation of R91 and R92 is the library's, for every rotation below the width. -/
theorem rotl_eq_rotateLeft {w r : Nat} (hr : r < w) (x : BitVec w) : rotl x r = x.rotateLeft r := by
  rw [rotl, BitVec.rotateLeft_def, Nat.mod_eq_of_lt hr]

theorem rotl32_eq_rotateLeft {r : Nat} (hr : r < 32) (x : Word32) : rotl32 x r = x.rotateLeft r := rotl_eq_rotateLeft hr x

theorem rotl64_eq_rotateLeft {r : Nat} (hr : r < 64) (x : Word64) : rotl64 x r = x.rotateLeft r := rotl_eq_rotateLeft hr x

@[simp] theorem rotl_zero {w : Nat} (r : Nat) : rotl (0#w) r = 0#w := by
  simp [rotl]

/-- A bit either stays below the top, or comes in again at bit 0. -/
theorem getLsbD_rotl {w r i : Nat} (hr : r < w) (hi : i < w) (x : BitVec w) :
    (rotl x r).getLsbD ((i + r) % w) = x.getLsbD i := by
  rw [rotl_eq_rotateLeft hr, BitVec.getLsbD_rotateLeft_of_le hr]
  by_cases hwrap : i + r < w
  · simp [Nat.mod_eq_of_lt hwrap, hwrap]
  · have hmod : (i + r) % w = i + r - w := by
      rw [Nat.mod_eq_sub_mod (by omega), Nat.mod_eq_of_lt (by omega)]
    simp [hmod, show i + r - w < r by omega, show w - r + (i + r - w) = i by omega]

/-! ### The steps of the datapath functions lose nothing -/

/-- No bit is lost, so the value can be read back. -/
theorem rotl_injective {w r : Nat} (hr : r < w) : Function.Injective fun x : BitVec w => rotl x r := by
  intro x y (h : rotl x r = rotl y r)
  apply BitVec.eq_of_getLsbD_eq
  intro i hi
  rw [← getLsbD_rotl hr hi x, ← getLsbD_rotl hr hi y, h]

theorem xor_left_injective {w : Nat} (a : BitVec w) : Function.Injective fun x : BitVec w => x ^^^ a :=
  fun _ _ => (BitVec.xor_left_inj a).mp

theorem xor_right_injective {w : Nat} (a : BitVec w) : Function.Injective fun x : BitVec w => a ^^^ x :=
  fun _ _ => (BitVec.xor_right_inj a).mp

/-- An odd factor is prime to `2 ^ w`. -/
theorem mul_odd_injective {w : Nat} {c : BitVec w} (hc : Odd c.toNat) : Function.Injective fun x : BitVec w => x * c := by
  intro x y (h : x * c = y * c)
  have hmod : x.toNat * c.toNat ≡ y.toNat * c.toNat [MOD 2 ^ w] := by
    simpa [Nat.ModEq, ← BitVec.toNat_eq] using congrArg BitVec.toNat h
  have hcoprime : (2 ^ w).Coprime c.toNat := (Nat.coprime_two_left.mpr hc).pow_left w
  have hxy : x.toNat % 2 ^ w = y.toNat % 2 ^ w := hmod.cancel_right_of_coprime hcoprime
  apply BitVec.eq_of_toNat_eq
  rwa [Nat.mod_eq_of_lt x.isLt, Nat.mod_eq_of_lt y.isLt] at hxy

/-- A value that is itself shifted right is 0. -/
theorem eq_zero_of_eq_ushiftRight {w s : Nat} (hs : 0 < s) {z : BitVec w} (h : z = z >>> s) : z = 0 := by
  apply BitVec.eq_of_toNat_eq
  by_contra hz
  have hpos : 0 < z.toNat := Nat.pos_of_ne_zero (by simpa using hz)
  have hself : z.toNat = z.toNat / 2 ^ s := by
    conv_lhs => rw [h]
    rw [BitVec.toNat_ushiftRight, Nat.shiftRight_eq_div_pow]
  have hlt : z.toNat / 2 ^ s < z.toNat := Nat.div_lt_self hpos (Nat.one_lt_two_pow hs.ne')
  omega

/-- The step is linear over xor, and only 0 goes to 0. -/
theorem xorShift_injective {w s : Nat} (hs : 0 < s) : Function.Injective fun x : BitVec w => xorShift x s := by
  intro x y (h : xorShift x s = xorShift y s)
  rw [← BitVec.xor_eq_zero_iff]
  apply eq_zero_of_eq_ushiftRight hs
  rw [← BitVec.xor_eq_zero_iff, BitVec.ushiftRight_xor_distrib]
  calc x ^^^ y ^^^ (x >>> s ^^^ y >>> s) = xorShift x s ^^^ xorShift y s := by unfold xorShift; ac_rfl
    _ = 0 := by rw [h, BitVec.xor_self]; rfl

/-- The scramble of a key word (R95, R100). -/
theorem scramble_injective {w r : Nat} (hr : r < w) {a b : BitVec w} (ha : Odd a.toNat) (hb : Odd b.toNat) :
    Function.Injective fun k : BitVec w => rotl (k * a) r * b :=
  (mul_odd_injective hb).comp ((rotl_injective hr).comp (mul_odd_injective ha))

/-- The two avalanches (R97, R102). -/
theorem avalanche_injective {w s1 s2 s3 : Nat} (hs1 : 0 < s1) (hs2 : 0 < s2) (hs3 : 0 < s3) {a b : BitVec w}
    (ha : Odd a.toNat) (hb : Odd b.toNat) :
    Function.Injective fun h : BitVec w => xorShift (xorShift (xorShift h s1 * a) s2 * b) s3 :=
  (xorShift_injective hs3).comp <| (mul_odd_injective hb).comp <| (xorShift_injective hs2).comp <|
    (mul_odd_injective ha).comp (xorShift_injective hs1)

/-- What both mixers do to a lane that has taken in its key word (R96, R101). -/
theorem rotateAddMul_injective {w r : Nat} (hr : r < w) {m : BitVec w} (hm : Odd m.toNat) (c n : BitVec w) :
    Function.Injective fun x : BitVec w => (rotl x r + c) * m + n :=
  (add_left_injective n).comp <| (mul_odd_injective hm).comp <| (add_left_injective c).comp (rotl_injective hr)

/-! ### The datapath functions are injective -/

theorem scr32_injective : Function.Injective (scr32 mmh3c) :=
  scramble_injective (by decide) (by decide) (by decide)

theorem fmix32_injective : Function.Injective (fmix32 mmh3c) :=
  avalanche_injective (by decide) (by decide) (by decide) (by decide) (by decide)

/-- The last steps of MIX32, after the lane and the scrambled key word are xored. -/
theorem mix32_rotateMulAdd_injective :
    Function.Injective fun x : Word32 => rotl32 x mmh3c.x86.r2 * mmh3c.x86.m + mmh3c.x86.n := by
  simpa [rotl32] using rotateAddMul_injective (r := mmh3c.x86.r2) (by decide) (m := mmh3c.x86.m) (by decide) 0 mmh3c.x86.n

theorem mix32_lane_injective (k : Word32) : Function.Injective fun h => mix32 mmh3c h k :=
  mix32_rotateMulAdd_injective.comp (xor_left_injective (scr32 mmh3c k))

theorem mix32_key_injective (h : Word32) : Function.Injective fun k => mix32 mmh3c h k :=
  mix32_rotateMulAdd_injective.comp ((xor_right_injective h).comp scr32_injective)

theorem scr64A_injective : Function.Injective (scr64A mmh3c) :=
  scramble_injective (by decide) (by decide) (by decide)

theorem scr64B_injective : Function.Injective (scr64B mmh3c) :=
  scramble_injective (by decide) (by decide) (by decide)

theorem fmix64_injective : Function.Injective (fmix64 mmh3c) :=
  avalanche_injective (by decide) (by decide) (by decide) (by decide) (by decide)

/-- The new lane 1 is an operand of the new lane 2: from both, old lane 2 is read back first, and then old lane 1. -/
theorem mix128_injective (k1 k2 : Word64) :
    Function.Injective fun h : Word64 × Word64 => mix128 mmh3c h.1 h.2 k1 k2 := by
  have hlane1 (c : Word64) := (rotateAddMul_injective (r := mmh3c.x64.rh1) (by decide) (m := mmh3c.x64.m) (by decide) c
    mmh3c.x64.n1).comp (xor_left_injective (scr64A mmh3c k1))
  have hlane2 (c : Word64) := (rotateAddMul_injective (r := mmh3c.x64.rh2) (by decide) (m := mmh3c.x64.m) (by decide) c
    mmh3c.x64.n2).comp (xor_left_injective (scr64B mmh3c k2))
  rintro ⟨x1, x2⟩ ⟨y1, y2⟩ heq
  obtain ⟨h1, h2⟩ := Prod.mk.inj heq
  rw [h1] at h2
  obtain rfl : x2 = y2 := hlane2 _ h2
  obtain rfl : x1 = y1 := hlane1 _ h1
  rfl

/-! ### The tail fold without the tests on the count (R98, R103) -/

@[simp] theorem scr32_zero (K : Config) : scr32 K 0#32 = 0#32 := by
  simp [scr32, rotl32]

@[simp] theorem scr64A_zero (K : Config) : scr64A K 0#64 = 0#64 := by
  simp [scr64A, rotl64]

@[simp] theorem scr64B_zero (K : Config) : scr64B K 0#64 = 0#64 := by
  simp [scr64B, rotl64]

/-- With no valid byte the fold would xor 0, so the test on the count changes nothing. -/
theorem tail32_eq (K : Config) (h : Word32) (cnt : Fin 4) (buf : Vector Byte 3) :
    tail32 K h cnt buf = h ^^^ scr32 K (le 32 (buf.toList.take cnt.val)) := by
  rw [tail32]
  split
  · next hcnt => simp [hcnt]
  · rfl

/-- With no valid byte for a lane the fold would xor 0 into it, so the tests on the count change nothing. -/
theorem tail128_eq (K : Config) (h1 h2 : Word64) (cnt : Fin 16) (buf : Vector Byte 15) :
    tail128 K h1 h2 cnt buf =
      (h1 ^^^ scr64A K (le 64 ((buf.toList.take cnt.val).take 8)),
       h2 ^^^ scr64B K (le 64 ((buf.toList.take cnt.val).drop 8))) := by
  rw [tail128]
  refine Prod.ext ?lane1 ?lane2
  case lane1 =>
    dsimp only
    split
    · rfl
    · next hcnt => simp [show cnt.val = 0 by omega]
  case lane2 =>
    dsimp only
    split
    · rfl
    · next hcnt => simp [List.drop_take, show cnt.val - 8 = 0 by omega]

/-- Where every byte from `n` on is 0, the first `n` assemble to what all of them do. -/
theorem le_take_of_zeros (w : Nat) {bs : List Byte} {n : Nat} (h : ∀ b ∈ bs.drop n, b = 0) : le w (bs.take n) = le w bs := by
  conv_rhs => rw [← List.take_append_drop n bs, List.eq_replicate_of_mem h, le_append_zeros]

/-- The bytes of a canonical buffer that are not valid are 0 (R23). -/
theorem eq_zero_of_mem_drop {n cnt : Nat} {buf : Vector Byte n} (h : ∀ i : Fin n, cnt ≤ i.val → buf[i] = 0) :
    ∀ x ∈ buf.toList.drop cnt, x = 0 := by
  intro x hx
  obtain ⟨i, hi, rfl⟩ := List.mem_drop_iff_getElem.mp hx
  exact h ⟨cnt + i, by simpa [Nat.add_comm] using hi⟩ (Nat.le_add_right _ _)

theorem vector_ofFn_const {α : Type} (n : Nat) (a : α) : (Vector.ofFn fun _ : Fin n => a) = Vector.replicate n a := by
  ext i hi
  simp

@[simp] theorem le_replicate_zero (w n : Nat) : le w (List.replicate n 0#8) = 0#w :=
  le_append_zeros w [] n

theorem tail32_of_canonical (K : Config) {b : Bank32} (hb : b.Canonical) :
    tail32 K b.h b.cnt b.buf = b.h ^^^ scr32 K (le 32 b.buf.toList) := by
  rw [tail32_eq, le_take_of_zeros 32 (eq_zero_of_mem_drop hb)]

theorem tail128_of_canonical (K : Config) {b : Bank128} (hb : b.Canonical) :
    tail128 K b.h1 b.h2 b.cnt b.buf =
      (b.h1 ^^^ scr64A K (le 64 (b.buf.toList.take 8)), b.h2 ^^^ scr64B K (le 64 (b.buf.toList.drop 8))) := by
  have hzero := eq_zero_of_mem_drop hb
  have hlow : ∀ x ∈ (b.buf.toList.take 8).drop b.cnt.val, x = 0 := fun x hx =>
    hzero x (by rw [List.drop_take] at hx; exact List.mem_of_mem_take hx)
  have hhigh : ∀ x ∈ (b.buf.toList.drop 8).drop (b.cnt.val - 8), x = 0 := fun x hx =>
    hzero x (by
      rw [List.drop_drop, show 8 + (b.cnt.val - 8) = b.cnt.val + (8 - b.cnt.val) by omega, ← List.drop_drop] at hx
      exact List.mem_of_mem_drop hx)
  rw [tail128_eq, List.take_take, Nat.min_comm, ← List.take_take, List.drop_take, le_take_of_zeros 64 hlow,
    le_take_of_zeros 64 hhigh]

/-! ### The seed and the digest of x86_32 (R141) -/

/-- A fold of injective steps is injective in its start. -/
theorem foldl_injective {α β : Type} {f : β → α → β} (hf : ∀ a, Function.Injective fun b => f b a) (l : List α) :
    Function.Injective fun b => l.foldl f b := by
  induction l with
  | nil => exact Function.injective_id
  | cons a l ih => exact ih.comp (hf a)

theorem mixBlocks32_injective (B : List Byte) : Function.Injective (mixBlocks32 mmh3c B) :=
  foldl_injective (fun _ => mix32_lane_injective _) _

theorem final32_injective (cnt : Fin 4) (buf : Vector Byte 3) (total : Word32) :
    Function.Injective fun h => final32 mmh3c h cnt buf total := by
  have htail : Function.Injective fun h => tail32 mmh3c h cnt buf := by
    simpa only [tail32_eq] using xor_left_injective (scr32 mmh3c (le 32 (buf.toList.take cnt.val)))
  exact fmix32_injective.comp ((xor_left_injective total).comp htail)

theorem oneShot32_injective (B : List Byte) : Function.Injective (oneShot32 mmh3c B) :=
  (final32_injective _ _ _).comp (mixBlocks32_injective B)

/-! ### The digest layout (R105) -/

theorem digestBytes_full (d1 d2 : Word64) : digestBytes d1 d2 .full = d2 ++ d1 := rfl

theorem digestBytes_first8 (d1 d2 : Word64) : digestBytes d1 d2 .first8 = BitVec.ofNat 128 d1.toNat :=
  (BitVec.ofNat_toNat 128 d1).symm

theorem digestBytes_first4 (d1 d2 : Word64) : digestBytes d1 d2 .first4 = BitVec.ofNat 128 (d1.toNat % 2 ^ 32) := by
  rw [← BitVec.toNat_setWidth, BitVec.ofNat_toNat]
  rfl

/-! ### Commands that feed bank 128 a stream (R131, R152) -/

theorem bank128After_of_onlyPushes128 {i : Instr} (h : Claims.onlyPushes128 i = true) (d : Bank128) :
    bank128After i d = pushBytes128 mmh3c d (Claims.fed128 i) := by
  cases i with
  | init128 _ | wrh128 _ _ | wrc128 _ => cases h
  | _ => rfl

/-- Commands that write bank 128 by PUSH128 alone feed it their bytes in order. -/
theorem execList_of_onlyPushes128 {is : List Instr} (h : ∀ i ∈ is, Claims.onlyPushes128 i = true) (s : State) :
    ∃ t, execList is s = .next t ∧ t.bank128 = pushBytes128 mmh3c s.bank128 (is.map Claims.fed128).flatten := by
  induction is generalizing s with
  | nil => exact ⟨s, rfl, rfl⟩
  | cons i is ih =>
    obtain ⟨hi, his⟩ := List.forall_mem_cons.mp h
    obtain ⟨t, hrun, hbank⟩ := ih his (after i s)
    refine ⟨t, by rw [execList_cons, hrun], ?_⟩
    rw [hbank, after_bank128, bank128After_of_onlyPushes128 hi, ← pushBytes128_append, List.map_cons, List.flatten_cons]

/-- A run of two lists goes on with the second from where the first leads. -/
theorem execList_append {is : List Instr} {s t : State} (h : execList is s = .next t) (js : List Instr) :
    execList (is ++ js) s = execList js t := by
  rw [execList_eq, Host.Outcome.next.injEq] at h
  rw [execList_eq, execList_eq, List.foldl_append, h]

theorem onlyPushes128_flatMap_process128 (chunks : List (List Byte)) :
    ∀ i ∈ chunks.flatMap process128, Claims.onlyPushes128 i = true := by
  intro i hi
  obtain ⟨B, -, hB⟩ := List.mem_flatMap.mp hi
  obtain ⟨bs, rfl, -⟩ := (isProcess_process128 B).legal i hB
  rfl

/-- The beats of the chunks carry the bytes of the chunks. -/
theorem flatten_fed128_flatMap_process128 (chunks : List (List Byte)) :
    ((chunks.flatMap process128).map Claims.fed128).flatten = chunks.flatten := by
  induction chunks with
  | nil => rfl
  | cons B chunks ih =>
    rw [List.flatMap_cons, List.map_append, List.flatten_append, (isProcess_process128 B).carries, ih, List.flatten_cons]

/-! ### Bank 128 after a stream is what the one-shot function computes (R142, R152) -/

/-- Bank 128 on a block boundary, with lanes `h`. -/
def emptyCarry128 (h : Word64 × Word64) : Bank128 :=
  { h1 := h.1, h2 := h.2, cnt := 0, buf := Vector.replicate 15 0 }

theorem start128_eq_emptyCarry128 (seed : Word32) : Bank128.start seed = emptyCarry128 (seed.setWidth 64, seed.setWidth 64) := rfl

theorem emptyCarry128_canonical (h : Word64 × Word64) : (emptyCarry128 h).Canonical := fun i _ => by
  simp [emptyCarry128]

/-- Block `j` of `B` mixed into the lanes: the step of `mixBlocks128`. -/
def mixBlockAt128 (K : Config) (B : List Byte) (h : Word64 × Word64) (j : Nat) : Word64 × Word64 :=
  let block := (B.drop (16 * j)).take 16
  mix128 K h.1 h.2 (le 64 (block.take 8)) (le 64 (block.drop 8))

theorem mixBlocks128_eq (K : Config) (B : List Byte) (seed : Word32) :
    mixBlocks128 K B seed =
      (List.range (B.length / 16)).foldl (mixBlockAt128 K B) (seed.setWidth 64, seed.setWidth 64) := rfl

/-- Sixteen bytes from a block boundary are one block. -/
theorem pushBytes128_emptyCarry128_block (K : Config) (h : Word64 × Word64) {xs : List Byte} (hxs : xs.length = 16) :
    pushBytes128 K (emptyCarry128 h) xs = emptyCarry128 (mix128 K h.1 h.2 (le 64 (xs.take 8)) (le 64 (xs.drop 8))) :=
  pushBytes128_block K (emptyCarry128 h) xs (by simpa [emptyCarry128] using hxs)

/-- The first `q` blocks of `B`, from a block boundary. -/
theorem pushBytes128_blocks (K : Config) (h : Word64 × Word64) {B : List Byte} {q : Nat} (hq : 16 * q ≤ B.length) :
    pushBytes128 K (emptyCarry128 h) (B.take (16 * q)) = emptyCarry128 ((List.range q).foldl (mixBlockAt128 K B) h) := by
  induction q with
  | zero => rfl
  | succ q ih =>
    have hblock : ((B.drop (16 * q)).take 16).length = 16 := by
      rw [List.length_take, List.length_drop]
      omega
    rw [Nat.mul_succ, List.take_add, pushBytes128_append, ih (by omega), pushBytes128_emptyCarry128_block K _ hblock,
      List.range_succ, List.foldl_append]
    rfl

/-- A canonical buffer is its valid bytes and zeros (R23). -/
theorem buf_eq_padded {n cnt : Nat} {buf : Vector Byte n} (h : ∀ i : Fin n, cnt ≤ i.val → buf[i] = 0) :
    buf = padded n (buf.toList.take cnt) := by
  ext1 i hi
  rw [getElem_padded]
  by_cases hcnt : i < cnt
  · exact (getD_take_toList buf hcnt hi).symm
  · rw [List.getD_eq_default _ _ (by simp; omega)]
    exact h ⟨i, hi⟩ (Nat.not_lt.mp hcnt)

/-- Fewer than sixteen bytes from a block boundary are the carry. -/
theorem pushBytes128_emptyCarry128_rest (K : Config) (h : Word64 × Word64) {xs : List Byte} (hxs : xs.length < 16) :
    pushBytes128 K (emptyCarry128 h) xs = { h1 := h.1, h2 := h.2, cnt := ⟨xs.length, hxs⟩, buf := padded 15 xs } := by
  obtain ⟨h1, h2, hcnt, hvalid⟩ := pushBytes128_fit K (emptyCarry128 h) xs (by simpa [emptyCarry128] using hxs)
  have hbuf := buf_eq_padded (pushBytes128_canonical K _ xs (emptyCarry128_canonical h))
  rw [hvalid] at hbuf
  rw [Bank128.mk.injEq]
  refine ⟨h1, h2, Fin.ext ?_, ?_⟩
  · simpa [emptyCarry128] using hcnt
  · simpa [emptyCarry128] using hbuf

/-- INIT128 and the bytes of `B` leave the lanes after the complete blocks, and the remaining bytes as the carry (R152). -/
theorem pushBytes128_start (K : Config) (seed : Word32) (B : List Byte) :
    pushBytes128 K (Bank128.start seed) B =
      { h1 := (mixBlocks128 K B seed).1, h2 := (mixBlocks128 K B seed).2,
        cnt := ⟨B.length % 16, Nat.mod_lt _ (by decide)⟩, buf := tailBytes128 B } := by
  have hrest : (B.drop (16 * (B.length / 16))).length = B.length % 16 := by
    rw [List.length_drop]
    omega
  calc pushBytes128 K (Bank128.start seed) B
      = pushBytes128 K (pushBytes128 K (Bank128.start seed) (B.take (16 * (B.length / 16))))
          (B.drop (16 * (B.length / 16))) := by rw [← pushBytes128_append, List.take_append_drop]
    _ = pushBytes128 K (emptyCarry128 (mixBlocks128 K B seed)) (B.drop (16 * (B.length / 16))) := by
        rw [start128_eq_emptyCarry128, pushBytes128_blocks K _ (by omega), mixBlocks128_eq]
    _ = _ := by
        rw [pushBytes128_emptyCarry128_rest K _ (by omega), Bank128.mk.injEq]
        exact ⟨rfl, rfl, Fin.ext hrest, rfl⟩

/-- The digest of a stream is the one-shot digest of its bytes. -/
theorem digest_pushBytes128_start (K : Config) (seed : Word32) (B : List Byte) :
    (pushBytes128 K (Bank128.start seed) B).digest K (BitVec.ofNat 32 B.length) = oneShot128 K B seed := by
  rw [pushBytes128_start]
  rfl

/-- The length of the stream fits the count of its bytes after the last block. -/
theorem lengthFits128_pushBytes128_start (K : Config) (seed : Word32) (B : List Byte) :
    lengthFits128 (BitVec.ofNat 32 B.length) (pushBytes128 K (Bank128.start seed) B).cnt = true := by
  rw [pushBytes128_start, lengthFits128, beq_iff_eq, BitVec.toNat_ofNat]
  exact Nat.mod_mod_of_dvd _ (by decide)

/-! ### The obligations -/

/-- Settles O47: the chunks feed bank 128 their bytes from the start, and the digest of that stream is the one-shot digest. The
bound on the length is not needed: the count agrees with the length modulo 2^32 too, which 16 divides. -/
theorem chunkingInvariance128 : Obligations.ChunkingInvariance128 := by
  intro form seed chunks s _
  obtain ⟨t, hrun, hbank⟩ :=
    execList_of_onlyPushes128 (onlyPushes128_flatMap_process128 chunks) (after (.init128 seed) s)
  rw [flatten_fed128_flatMap_process128] at hbank
  have hstream : t.bank128 = pushBytes128 mmh3c (Bank128.start seed) chunks.flatten := hbank
  refine ⟨after (.result128 form (BitVec.ofNat 32 chunks.flatten.length)) t, ?_, ?_⟩
  · rw [List.cons_append, execList_cons, execList_append hrun, execList_cons, execList_nil]
  · rw [after_responses, List.getLast?_concat, answerOf, hstream, lengthFits128_pushBytes128_start,
      digest_pushBytes128_start, checked, if_pos rfl]
    cases form with
    | full => rfl
    | first8 => rw [digestBytes_first8]
    | first4 => rw [digestBytes_first4]

/-- Settles O50. -/
theorem rotateMovesEveryBit : Obligations.RotateMovesEveryBit :=
  ⟨fun x _ _ _ hr hi => getLsbD_rotl hr hi x, fun x _ _ _ hr hi => getLsbD_rotl hr hi x⟩

/-- Settles O54: on finitely many values an injective map is a bijection. -/
theorem x86FunctionsAreBijections : Obligations.X86FunctionsAreBijections :=
  ⟨scr32_injective.bijective_of_finite, fmix32_injective.bijective_of_finite,
    fun k => (mix32_lane_injective k).bijective_of_finite, fun h => (mix32_key_injective h).bijective_of_finite⟩

/-- Settles O55: on finitely many values, and pairs of them, an injective map is a bijection. -/
theorem x64FunctionsAreBijections : Obligations.X64FunctionsAreBijections :=
  ⟨scr64A_injective.bijective_of_finite, scr64B_injective.bijective_of_finite, fmix64_injective.bijective_of_finite,
    fun k1 k2 => (mix128_injective k1 k2).bijective_of_finite⟩

/-- Settles O56: the blocks, the tail, the length and the avalanche each keep different lanes different. -/
theorem seedToDigest32IsABijection : Obligations.SeedToDigest32IsABijection :=
  fun B => (oneShot32_injective B).bijective_of_finite

/-- Settles O57: a bank with a buffer of zero bytes is canonical whatever its count, and zero bytes assemble to 0. -/
theorem tailFoldIgnoresAbsentBytes : Obligations.TailFoldIgnoresAbsentBytes := by
  refine ⟨fun b hb => tail32_of_canonical mmh3c hb, fun b hb => tail128_of_canonical mmh3c hb, fun h cnt => ?_,
    fun h1 h2 cnt => ?_⟩
  · have hcanonical : (Bank32.mk h cnt (Vector.ofFn fun _ => 0)).Canonical := fun i _ => by simp
    exact (tail32_of_canonical mmh3c hcanonical).trans (by simp [vector_ofFn_const])
  · have hcanonical : (Bank128.mk h1 h2 cnt (Vector.ofFn fun _ => 0)).Canonical := fun i _ => by simp
    exact (tail128_of_canonical mmh3c hcanonical).trans (by simp [vector_ofFn_const])

/-- Settles O52, by evaluation. -/
theorem datapathWorkedValues : Obligations.DatapathWorkedValues := by
  refine ⟨?_, ?_, ?_, ?_, ?_, ?_, ?_⟩ <;> decide

/-- Settles O53: the rotations are the library's, and the rest is the definitions. -/
theorem datapathFollowsItsFormulas : Obligations.DatapathFollowsItsFormulas := by
  refine ⟨fun k => ?scr32, fun h k => ?mix32, fun h => rfl, fun h total cnt buf => ⟨?tail32, rfl⟩,
    fun k => ⟨?scr64A, ?scr64B⟩, fun h1 h2 k1 k2 => ?mix128, fun k => rfl, fun h1 h2 cnt buf => ?tail128,
    fun h1 h2 cnt buf total => ?final128,
    fun d1 d2 => ⟨digestBytes_full d1 d2, digestBytes_first8 d1 d2, digestBytes_first4 d1 d2⟩⟩
  case scr32 => exact congrArg (· * mmh3c.x86.c2) (rotl32_eq_rotateLeft (by decide) _)
  case mix32 => exact congrArg (· * mmh3c.x86.m + mmh3c.x86.n) (rotl32_eq_rotateLeft (by decide) _)
  case tail32 => simp only [tail32, Fin.ext_iff, Fin.val_zero]
  case scr64A => exact congrArg (· * mmh3c.x64.c2) (rotl64_eq_rotateLeft (by decide) _)
  case scr64B => exact congrArg (· * mmh3c.x64.c1) (rotl64_eq_rotateLeft (by decide) _)
  case mix128 =>
    rw [← rotl64_eq_rotateLeft (by decide), ← rotl64_eq_rotateLeft (by decide)]
    rfl
  case tail128 =>
    have hpos : cnt.val > 0 ↔ ¬ cnt = 0 := by rw [gt_iff_lt, Fin.ext_iff, Fin.val_zero, Nat.pos_iff_ne_zero]
    have hgt : cnt.val > 8 ↔ ¬ cnt.val ≤ 8 := Nat.not_le.symm
    simp only [tail128, hpos, hgt, ite_not, List.take_take, Nat.min_comm 8]
  case final128 =>
    rw [BitVec.ofNat_toNat]
    rfl

end Sys2Proof.Proofs
end

section
/-!
The commands of bank 32: which command each of their words runs, what the commands that only answer and the commands that write
bank 32 do to the state, and the loop of PUSH32 byte by byte. The theorems that settle the obligations of 41_bank32_commands.md
stand at the end.
-/

namespace Sys2Proof.Proofs

open Sys2Proof Sys2Proof.Machine

/-! ### From the word to the command, and from the command to the state (R50) -/

/-- A word of the opcode table runs its row's command, whatever the payload bits that the row has no operand in. -/
theorem runCommand_of_row {c : Command} {i : Instr} (h : Row c i) (s : State) : runCommand c s = exec i s := by
  rw [runCommand_of_ok (decode_of_row h), exec_eq]

/-- A command that reads answers, and does nothing else. -/
theorem exec_of_isRead {i : Instr} (h : isRead i = true) {s : State} {st : Status} {d : Payload}
    (hanswer : answerOf i s.bank32 s.bank128 = ⟨st, d⟩) : exec i s = Claims.onlyAnswers s st d := by
  rw [exec_eq, after_of_keepsRegisters (keepsRegisters_of_isRead h), hanswer]

/-- A command of bank 32 that succeeds without a value writes bank 32, and does nothing else. -/
theorem exec_of_actsOnBank32 {i : Instr} (h : actsOnBank32 i = true) {s : State}
    (hanswer : answerOf i s.bank32 s.bank128 = ⟨.ok, 0⟩) : exec i s = Claims.setsBank32 s (bank32After i s.bank32) := by
  rw [exec_eq, after, hanswer, bank128After_of_not_actsOnBank128 (actsOnBank128_of_actsOnBank32 h)]

@[simp] theorem checked_true (d : Payload) (st : Status) : checked true d st = ⟨.ok, d⟩ := rfl

@[simp] theorem checked_false (d : Payload) (st : Status) : checked false d st = ⟨st, 0⟩ := rfl

/-- The low bits of the length are compared with the count (R122). -/
theorem lengthFits32_iff (total : Word32) (cnt : Fin 4) : lengthFits32 total cnt = true ↔ total.toNat % 4 = cnt.val :=
  beq_iff_eq

/-! ### The commands that start a stream and that load (R120, R125, R126) -/

/-- The stream that INIT32 starts, register by register. -/
theorem start32_eq (seed : Word32) : Bank32.start seed = { h := seed, cnt := 0, buf := Vector.ofFn fun _ => 0 } := by
  rw [vector_ofFn_const]
  rfl

theorem exec_init32 (seed : Word32) (s : State) :
    exec (.init32 seed) s = Claims.setsBank32 s { h := seed, cnt := 0, buf := Vector.ofFn fun _ => 0 } := by
  rw [← start32_eq]
  exact exec_of_actsOnBank32 rfl rfl

theorem exec_wrh32 (h : Word32) (s : State) : exec (.wrh32 h) s = Claims.setsBank32 s { s.bank32 with h := h } :=
  exec_of_actsOnBank32 rfl rfl

/-- WRC32 loads the carry of an image whose marker is the count `m`. -/
theorem exec_wrc32_of_marker {w : Word32} {m : Fin 4} (hm : byteAt w 0 = BitVec.ofNat 8 m.val) (s : State) :
    exec (.wrc32 w) s = Claims.setsBank32 s { s.bank32 with cnt := m, buf := carryBytes32 w m.val } := by
  have hsome := unpack32_of_marker hm
  have hbank : bank32After (.wrc32 w) s.bank32 = { s.bank32 with cnt := m, buf := carryBytes32 w m.val } := by
    simp [bank32After, loadCarry32, hsome]
  rw [← hbank]
  exact exec_of_actsOnBank32 rfl (by simp [answerOf, hsome])

/-- WRC32 with a malformed image writes nothing. -/
theorem exec_wrc32_of_malformed {w : Word32} (hnone : unpack32 w = none) (s : State) :
    exec (.wrc32 w) s = Claims.onlyAnswers s .invalidCarry 0 := by
  have hkeeps : KeepsRegisters (.wrc32 w) := ⟨fun b => by simp [bank32After, loadCarry32, hnone], fun _ => rfl⟩
  rw [exec_eq, after_of_keepsRegisters hkeeps]
  simp [answerOf, hnone]

/-! ### The loop of PUSH32 (R121) -/

theorem exec_push32 (bytes : List Byte) (s : State) :
    exec (.push32 bytes) s = Claims.setsBank32 s (pushBytes32 mmh3c s.bank32 bytes) :=
  exec_of_actsOnBank32 rfl rfl

theorem toList_vector3 {α : Type} (v : Vector α 3) : v.toList = [v[0], v[1], v[2]] := by
  apply List.ext_getElem
  · simp
  · intro i hi _
    have hlt : i < 3 := by simpa using hi
    interval_cases i <;> rfl

/-- Writing one element of a vector, position by position. -/
theorem vector_set_eq_ofFn {α : Type} {n k : Nat} (v : Vector α n) (hk : k < n) (x : α) :
    v.set k x = Vector.ofFn fun i => if i.val = k then x else v[i] := by
  ext i hi
  simp [Vector.getElem_set, eq_comm]

/-- One turn of the loop is the byte's effect on bank 32 as R121 writes it. -/
theorem pushByte32_eq_bank32AfterByte (b : Bank32) (x : Byte) : pushByte32 mmh3c b x = Claims.bank32AfterByte b x := by
  by_cases hroom : b.cnt.val < 3
  · have hcnt : b.cnt ≠ 3 := fun h => by simp [h] at hroom
    have hsucc : (b.cnt + 1).val = b.cnt.val + 1 := Fin.val_add_one_of_lt' (by omega)
    rw [pushByte32_of_room _ _ _ hroom, Claims.bank32AfterByte, if_neg hcnt, Bank32.mk.injEq]
    exact ⟨rfl, Fin.ext hsucc.symm, vector_set_eq_ofFn b.buf hroom x⟩
  · have hcnt : b.cnt = 3 := by omega
    rw [pushByte32_of_full _ _ _ hroom, Claims.bank32AfterByte, if_pos hcnt, vector_ofFn_const, toList_vector3]
    rfl

/-- The first byte of a beat, and then the rest of the beat. -/
theorem exec_push32_cons (x : Byte) (xs : List Byte) (s : State) :
    exec (.push32 (x :: xs)) s = exec (.push32 xs) { s with bank32 := Claims.bank32AfterByte s.bank32 x } := by
  rw [exec_push32, exec_push32, pushBytes32_cons, pushByte32_eq_bank32AfterByte]

theorem pushByte32_cnt (K : Config) (b : Bank32) (x : Byte) : (pushByte32 K b x).cnt.val = (b.cnt.val + 1) % 4 := by
  by_cases hroom : b.cnt.val < 3
  · rw [pushByte32_of_room _ _ _ hroom, Nat.mod_eq_of_lt (by omega)]
  · have hcnt : b.cnt.val = 3 := by omega
    rw [pushByte32_of_full _ _ _ hroom, hcnt]
    rfl

/-- The count after any number of bytes. -/
theorem pushBytes32_cnt (K : Config) (b : Bank32) (xs : List Byte) :
    (pushBytes32 K b xs).cnt.val = (b.cnt.val + xs.length) % 4 := by
  induction xs generalizing b with
  | nil => exact (Nat.mod_eq_of_lt b.cnt.isLt).symm
  | cons x xs ih =>
    rw [pushBytes32_cons, ih, pushByte32_cnt, Nat.mod_add_mod, List.length_cons, Nat.add_assoc, Nat.add_comm 1]

/-- The block that a beat completes is the first four bytes of the valid bytes and the beat. -/
theorem take_valid32_append (b : Bank32) (xs : List Byte) :
    (Claims.valid32 b ++ xs).take 4 = Claims.valid32 b ++ xs.take (4 - b.cnt.val) := by
  have hlen : (Claims.valid32 b).length = b.cnt.val := by
    simp
    omega
  rw [List.take_append, hlen, List.take_of_length_le (by omega)]

/-- The lane after a legal beat: one block is mixed when the bytes reach a block, and a second is never reached. -/
theorem pushBytes32_h (K : Config) (b : Bank32) {xs : List Byte} (hxs : xs.length ≤ 4) :
    (pushBytes32 K b xs).h =
      if 4 ≤ b.cnt.val + xs.length then mix32 K b.h (le 32 ((Claims.valid32 b ++ xs).take 4)) else b.h := by
  by_cases hfull : 4 ≤ b.cnt.val + xs.length
  · rw [if_pos hfull, pushBytes32_over K b xs hfull, take_valid32_append]
    have hrest : (xs.drop (4 - b.cnt.val)).length < 4 := by
      rw [List.length_drop]
      omega
    exact (pushBytes32_fit K _ _ (by simpa using hrest)).1
  · rw [if_neg hfull]
    exact (pushBytes32_fit K b xs (by omega)).1

/-! ### The obligations -/

/-- Settles O18: the command's loop is a fold over the bytes, so the rest of a beat runs on the bank after its first byte; the
count is taken modulo 4 byte by byte, and a legal beat reaches one block at most. -/
theorem push32FollowsTheByteLoop : Obligations.Push32FollowsTheByteLoop := by
  refine ⟨fun n w s hn => ?word, fun s => exec_push32 [] s, exec_push32_cons, fun xs s hxs => ?beat⟩
  case word =>
    rw [← push32_word hn]
    exact runCommand_of_row (.push32 n w hn) s
  case beat =>
    exact ⟨pushBytes32 mmh3c s.bank32 xs, exec_push32 xs s, pushBytes32_cnt _ _ _, pushBytes32_h _ _ hxs⟩

/-- Settles O17. -/
theorem init32StartsAStream : Obligations.Init32StartsAStream :=
  ⟨fun w s => (runCommand_of_row (.init32 w) s).trans (exec_init32 _ s), exec_init32⟩

/-- Settles O19: RESULT32 only reads, and its answer is decided by the check on the length. -/
theorem result32AnswersDigestOrInvalidLength : Obligations.Result32AnswersDigestOrInvalidLength := by
  refine fun total s => ⟨?word, fun hfits => exec_of_isRead rfl ?digest, fun hwrong => exec_of_isRead rfl ?error⟩
  case word =>
    rintro w rfl
    exact runCommand_of_row (.result32 w) s
  case digest =>
    rw [answerOf, (lengthFits32_iff _ _).mpr hfits, checked_true, BitVec.ofNat_toNat]
    rfl
  case error =>
    rw [answerOf, Bool.eq_false_iff.mpr (mt (lengthFits32_iff _ _).mp hwrong), checked_false]

/-- Settles O20. -/
theorem rdh32ReadsTheLane : Obligations.Rdh32ReadsTheLane := by
  intro w s
  rw [runCommand_of_row (.rdh32 w), BitVec.ofNat_toNat]
  exact ⟨exec_of_isRead rfl rfl, exec_of_isRead rfl rfl⟩

/-- Settles O21. -/
theorem rdc32ReadsThePackedCarry : Obligations.Rdc32ReadsThePackedCarry := by
  intro w s
  rw [runCommand_of_row (.rdc32 w), BitVec.ofNat_toNat]
  exact ⟨exec_of_isRead rfl rfl, exec_of_isRead rfl rfl⟩

/-- Settles O22. -/
theorem wrh32LoadsTheLane : Obligations.Wrh32LoadsTheLane :=
  ⟨fun w s => (runCommand_of_row (.wrh32 w) s).trans (exec_wrh32 _ s), exec_wrh32⟩

/-- Settles O23: the marker is the low byte of the image, and it decides whether the image loads. -/
theorem wrc32LoadsTheCarryOrRefusesTheMarker : Obligations.Wrc32LoadsTheCarryOrRefusesTheMarker := by
  refine fun w s => ⟨?word, fun m hm => ?loads, fun hbad => ?refuses⟩
  case word =>
    rintro v rfl
    exact runCommand_of_row (.wrc32 v) s
  case loads =>
    have hmarker : byteAt w 0 = BitVec.ofNat 8 m.val := by
      rw [← hm, BitVec.ofNat_toNat, BitVec.setWidth_eq]
      rfl
    exact exec_wrc32_of_marker hmarker s
  case refuses =>
    exact exec_wrc32_of_malformed ((unpack32_eq_none_iff w).mpr hbad) s

end Sys2Proof.Proofs
end

section
/-!
The commands of bank 128: what the commands that write bank 128 do to the state, the two answers of RESULT128, and the loop of PUSH128,
byte by byte and for a legal beat as a whole. The theorems that settle the obligations of 42_bank128_commands.md stand at the end.
-/

namespace Sys2Proof.Proofs

open Sys2Proof Sys2Proof.Machine

theorem actsOnBank32_of_actsOnBank128 {i : Instr} (h : actsOnBank128 i = true) : actsOnBank32 i = false :=
  Bool.eq_false_iff.mpr fun h32 => Bool.eq_false_iff.mp (actsOnBank128_of_actsOnBank32 h32) h

/-- A command of bank 128 that succeeds without a value writes bank 128, and does nothing else. -/
theorem exec_of_actsOnBank128 {i : Instr} (h : actsOnBank128 i = true) {s : State}
    (hanswer : answerOf i s.bank32 s.bank128 = ⟨.ok, 0⟩) : exec i s = Claims.setsBank128 s (bank128After i s.bank128) := by
  rw [exec_eq, after, hanswer, bank32After_of_not_actsOnBank32 (actsOnBank32_of_actsOnBank128 h)]

/-! ### The commands that start a stream and that load (R130, R135, R136) -/

/-- The stream that INIT128 starts, register by register. -/
theorem start128_eq (seed : Word32) : Bank128.start seed =
    { h1 := BitVec.ofNat 64 seed.toNat, h2 := BitVec.ofNat 64 seed.toNat, cnt := 0, buf := Vector.ofFn fun _ => 0 } := by
  rw [BitVec.ofNat_toNat, vector_ofFn_const]
  rfl

theorem exec_init128 (seed : Word32) (s : State) :
    exec (.init128 seed) s = Claims.setsBank128 s (Bank128.start seed) :=
  exec_of_actsOnBank128 rfl rfl

theorem exec_wrh128 (h1 h2 : Word64) (s : State) :
    exec (.wrh128 h1 h2) s = Claims.setsBank128 s { s.bank128 with h1 := h1, h2 := h2 } :=
  exec_of_actsOnBank128 rfl rfl

/-- WRC128 loads the carry of an image whose marker is the count `m`. -/
theorem exec_wrc128_of_marker {w : Payload} {m : Fin 16} (hm : byteAt w 8 = BitVec.ofNat 8 m.val) (s : State) :
    exec (.wrc128 w) s = Claims.setsBank128 s { s.bank128 with cnt := m, buf := carryBytes128 w m.val } := by
  have hsome := unpack128_of_marker hm
  have hbank : bank128After (.wrc128 w) s.bank128 = { s.bank128 with cnt := m, buf := carryBytes128 w m.val } := by
    simp [bank128After, loadCarry128, hsome]
  rw [← hbank]
  exact exec_of_actsOnBank128 rfl (by simp [answerOf, hsome])

/-- WRC128 with a malformed image writes nothing. -/
theorem exec_wrc128_of_malformed {w : Payload} (hnone : unpack128 w = none) (s : State) :
    exec (.wrc128 w) s = Claims.onlyAnswers s .invalidCarry 0 := by
  have hkeeps : KeepsRegisters (.wrc128 w) := ⟨fun _ => rfl, fun d => by simp [bank128After, loadCarry128, hnone]⟩
  rw [exec_eq, after_of_keepsRegisters hkeeps]
  simp [answerOf, hnone]

/-- The carry of an image, byte by byte, as R27 takes it from the two words of the image. -/
theorem carryBytes128_eq_carry128Of (w : Payload) (m : Fin 16) : carryBytes128 w m.val = Claims.carry128Of w m := by
  ext1 i hi
  rw [getElem_carryBytes128, Claims.carry128Of, Vector.getElem_ofFn]
  dsimp only
  split_ifs with hle hcnt h8 hcnt
  · exact (byteAt_low_word w (by omega)).symm
  · rfl
  · exact (byteAt_low_word w h8).symm
  · exact (byteAt_high_word w (by omega)).symm
  · rfl

/-! ### RESULT128 (R132) -/

/-- The low bits of the length are compared with the count, whatever the digest form. -/
theorem lengthFits128_iff (total : Word32) (cnt : Fin 16) : lengthFits128 total cnt = true ↔ total.toNat % 16 = cnt.val :=
  beq_iff_eq

theorem runCommand_result128_word (form : DigestForm) (w : Payload) (s : State) :
    runCommand ⟨BitVec.ofNat 32 (0x00000013 + 0x40 * trOfForm form), w⟩ s = exec (.result128 form (w.extractLsb' 0 32)) s := by
  rw [← result128_word]
  exact runCommand_of_row (.result128 form w) s

/-- When the length fits, the answer is the form's part of the digest. -/
theorem exec_result128_of_fits {total : Word32} {s : State} (hfits : total.toNat % 16 = s.bank128.cnt.val) (form : DigestForm) :
    exec (.result128 form total) s =
      Claims.onlyAnswers s .ok (digestBytes (s.bank128.digest mmh3c total).1 (s.bank128.digest mmh3c total).2 form) :=
  exec_of_isRead rfl (by rw [answerOf, (lengthFits128_iff _ _).mpr hfits, checked_true])

theorem exec_result128_of_wrong_length {total : Word32} {s : State} (hwrong : total.toNat % 16 ≠ s.bank128.cnt.val)
    (form : DigestForm) : exec (.result128 form total) s = Claims.onlyAnswers s .invalidLength 0 :=
  exec_of_isRead rfl (by
    rw [answerOf, Bool.eq_false_iff.mpr (mt (lengthFits128_iff _ _).mp hwrong), checked_false])

/-! ### The loop of PUSH128 (R131) -/

theorem exec_push128 (bytes : List Byte) (s : State) :
    exec (.push128 bytes) s = Claims.setsBank128 s (pushBytes128 mmh3c s.bank128 bytes) :=
  exec_of_actsOnBank128 rfl rfl

/-- The elements of a vector, in order. -/
theorem toList_eq_ofFn {α : Type} {n : Nat} (v : Vector α n) : v.toList = List.ofFn fun i : Fin n => v[i] := by
  apply List.ext_getElem <;> simp

/-- One turn of the loop is the byte's effect on bank 128 as R131 writes it. -/
theorem pushByte128_eq_bank128AfterByte (b : Bank128) (x : Byte) : pushByte128 mmh3c b x = Claims.bank128AfterByte b x := by
  by_cases hroom : b.cnt.val < 15
  · have hcnt : b.cnt ≠ 15 := fun h => by simp [h] at hroom
    have hsucc : (b.cnt + 1).val = b.cnt.val + 1 := Fin.val_add_one_of_lt' (by omega)
    rw [pushByte128_of_room _ _ _ hroom, Claims.bank128AfterByte, if_neg hcnt, Bank128.mk.injEq]
    exact ⟨rfl, rfl, Fin.ext hsucc.symm, vector_set_eq_ofFn b.buf hroom x⟩
  · have hcnt : b.cnt = 15 := by omega
    rw [pushByte128_of_full _ _ _ hroom, Claims.bank128AfterByte, if_pos hcnt, vector_ofFn_const, toList_eq_ofFn]
    rfl

/-- The first byte of a beat, and then the rest of the beat. -/
theorem exec_push128_cons (x : Byte) (xs : List Byte) (s : State) :
    exec (.push128 (x :: xs)) s = exec (.push128 xs) { s with bank128 := Claims.bank128AfterByte s.bank128 x } := by
  rw [exec_push128, exec_push128, pushBytes128_cons, pushByte128_eq_bank128AfterByte]

/-- The block that a beat completes is the first sixteen of the valid bytes and the beat. -/
theorem valid128_append_take (b : Bank128) (xs : List Byte) :
    Claims.valid128 b ++ xs.take (16 - b.cnt.val) = (Claims.valid128 b ++ xs).take 16 := by
  have hlen : (Claims.valid128 b).length = b.cnt.val := by
    simp
    omega
  rw [List.take_append, hlen, List.take_of_length_le (l := Claims.valid128 b) (by omega)]

/-- A beat that reaches a block: the block is mixed, its second eight bytes as `k2`, and the rest of the beat goes into an empty
carry. -/
theorem pushBytes128_of_full (K : Config) (b : Bank128) {xs : List Byte} (hfull : 16 ≤ b.cnt.val + xs.length) :
    pushBytes128 K b xs =
      pushBytes128 K
        (emptyCarry128 (mix128 K b.h1 b.h2 (le 64 ((Claims.valid128 b ++ xs).take 8))
          (le 64 (((Claims.valid128 b ++ xs).drop 8).take 8))))
        (xs.drop (16 - b.cnt.val)) := by
  have hlow : ((Claims.valid128 b ++ xs).take 16).take 8 = (Claims.valid128 b ++ xs).take 8 := List.take_take
  have hhigh : ((Claims.valid128 b ++ xs).take 16).drop 8 = ((Claims.valid128 b ++ xs).drop 8).take 8 := List.drop_take
  rw [← hlow, ← hhigh, ← valid128_append_take]
  exact pushBytes128_over K b xs hfull

/-- The count and the lanes after a legal beat: one block is mixed when the bytes reach a block, and a second is never reached. -/
theorem pushBytes128_beat (K : Config) (b : Bank128) {xs : List Byte} (hxs : xs.length ≤ 16) :
    (pushBytes128 K b xs).cnt.val = (b.cnt.val + xs.length) % 16 ∧
    ((pushBytes128 K b xs).h1, (pushBytes128 K b xs).h2) =
      if 16 ≤ b.cnt.val + xs.length then
        mix128 K b.h1 b.h2 (le 64 ((Claims.valid128 b ++ xs).take 8)) (le 64 (((Claims.valid128 b ++ xs).drop 8).take 8))
      else (b.h1, b.h2) := by
  by_cases hfull : 16 ≤ b.cnt.val + xs.length
  · have hrest : (xs.drop (16 - b.cnt.val)).length = b.cnt.val + xs.length - 16 := by
      rw [List.length_drop]
      omega
    rw [if_pos hfull, pushBytes128_of_full K b hfull, pushBytes128_emptyCarry128_rest K _ (by omega)]
    exact ⟨by dsimp only; omega, rfl⟩
  · obtain ⟨h1, h2, hcnt, -⟩ := pushBytes128_fit K b xs (Nat.not_le.mp hfull)
    rw [if_neg hfull, h1, h2, hcnt]
    exact ⟨by omega, rfl⟩

/-! ### The obligations -/

/-- Settles O25: the command's loop is a fold over the bytes, so the rest of a beat runs on the bank after its first byte; a legal
beat stays below a block or reaches exactly one, and in both cases the count and the lanes are known. -/
theorem push128FollowsTheByteLoop : Obligations.Push128FollowsTheByteLoop := by
  refine ⟨fun n w s hn => ?word, fun s => exec_push128 [] s, exec_push128_cons, fun xs s hxs => ?beat⟩
  case word =>
    rw [← push128_word hn]
    exact runCommand_of_row (.push128 n w hn) s
  case beat =>
    exact ⟨pushBytes128 mmh3c s.bank128 xs, exec_push128 xs s, pushBytes128_beat _ _ hxs⟩

/-- Settles O24. -/
theorem init128StartsAStream : Obligations.Init128StartsAStream := by
  refine ⟨fun w s => runCommand_of_row (.init128 w) s, fun seed s => ?_⟩
  rw [exec_init128, start128_eq]

/-- Settles O26: RESULT128 only reads, its answer is decided by the check on the length, and the three forms lay out the same digest
pair. -/
theorem result128AnswersDigestOrInvalidLength : Obligations.Result128AnswersDigestOrInvalidLength := by
  refine fun total s => ⟨?word, fun hfits => ?digest, exec_result128_of_wrong_length⟩
  case word =>
    rintro w rfl
    exact ⟨runCommand_result128_word .full w s, runCommand_result128_word .first8 w s, runCommand_result128_word .first4 w s⟩
  case digest =>
    have hanswer := exec_result128_of_fits hfits
    refine ⟨(s.bank128.digest mmh3c total).1, (s.bank128.digest mmh3c total).2, rfl, hanswer .full, ?_, ?_⟩
    · rw [hanswer, digestBytes_first8]
    · rw [hanswer, digestBytes_first4]

/-- Settles O27. -/
theorem rdh128ReadsBothLanes : Obligations.Rdh128ReadsBothLanes := by
  intro w s
  rw [runCommand_of_row (.rdh128 w)]
  exact ⟨exec_of_isRead rfl rfl, exec_of_isRead rfl rfl⟩

/-- Settles O28. -/
theorem rdc128ReadsThePackedCarry : Obligations.Rdc128ReadsThePackedCarry := by
  intro w s
  rw [runCommand_of_row (.rdc128 w)]
  exact ⟨exec_of_isRead rfl rfl, exec_of_isRead rfl rfl⟩

/-- Settles O29. -/
theorem wrh128LoadsBothLanes : Obligations.Wrh128LoadsBothLanes :=
  ⟨fun w s => (runCommand_of_row (.wrh128 w) s).trans (exec_wrh128 _ _ s), exec_wrh128⟩

/-- Settles O30: the marker is byte 8 of the image, the low byte of `c2`, and it decides whether the image loads. -/
theorem wrc128LoadsTheCarryOrRefusesTheMarker : Obligations.Wrc128LoadsTheCarryOrRefusesTheMarker := by
  refine fun w s => ⟨runCommand_of_row (.wrc128 w) s, fun m hm => ?loads, fun hbad => ?refuses⟩
  case loads =>
    have hmarker : byteAt w 8 = BitVec.ofNat 8 m.val := by
      rw [← hm, BitVec.ofNat_toNat, BitVec.setWidth_eq]
      rfl
    rw [exec_wrc128_of_marker hmarker, carryBytes128_eq_carry128Of]
  case refuses =>
    exact exec_wrc128_of_malformed ((unpack128_eq_none_iff w).mpr hbad) s

end Sys2Proof.Proofs
end

section
/-!
The laws of 43_nop_and_laws.md: what a list of commands answers and which commands can be left out of it, how a bank is saved and
restored, the closed form of a beat, and the stream that bank 32 reads. The theorems that settle the obligations of
43_nop_and_laws.md stand at the end.
-/

namespace Sys2Proof.Proofs

open Sys2Proof Sys2Proof.Machine

/-! ### What a list of commands answers (R50) -/

theorem runList_cons_of_next {c : Command} {s t : State} (h : runCommand c s = .next t) (cs : List Command) :
    runList (c :: cs) s = runList cs t := by
  rw [runList, h, andThen_next]

/-- The first command of a list is paired with its one response. -/
theorem answers_cons_of_next {c : Command} {s t : State} {r : Response} (h : runCommand c s = .next t)
    (hr : t.responses = s.responses ++ [r]) (cs : List Command) : answers (c :: cs) s = (c, r) :: answers cs t := by
  simp [answers, h, hr]

theorem runList_cons (c : Command) (cs : List Command) (s : State) :
    runList (c :: cs) s = runList cs (transact (commandRule c) s) :=
  runList_cons_of_next (runCommand_eq_transact c s) cs

theorem answers_cons (c : Command) (cs : List Command) (s : State) :
    answers (c :: cs) s = (c, (commandRule c s.toBlock).2) :: answers cs (transact (commandRule c) s) :=
  answers_cons_of_next (runCommand_eq_transact c s) rfl cs

theorem runList_completes (cs : List Command) (s : State) : ∃ t, runList cs s = .next t := by
  induction cs generalizing s with
  | nil => exact ⟨s, rfl⟩
  | cons c cs ih =>
    rw [runList_cons]
    exact ih _

@[simp] theorem length_answers (cs : List Command) (s : State) : (answers cs s).length = cs.length := by
  induction cs generalizing s with
  | nil => rfl
  | cons c cs ih => simp [answers_cons, ih]

/-- The second of two lists answers from where the first leads. -/
theorem answers_append {cs : List Command} {s t : State} (h : runList cs s = .next t) (later : List Command) :
    answers (cs ++ later) s = answers cs s ++ answers later t := by
  induction cs generalizing s with
  | nil =>
    obtain rfl : s = t := by simpa [runList] using h
    rfl
  | cons c cs ih =>
    rw [runList_cons] at h
    rw [List.cons_append, answers_cons, ih h, answers_cons, List.cons_append]

/-- What a list answers is decided by the registers: the ports are not read. -/
theorem answers_congr (cs : List Command) {s s' : State} (h : s'.toBlock = s.toBlock) : answers cs s' = answers cs s := by
  induction cs generalizing s s' with
  | nil => rfl
  | cons c cs ih =>
    have hnext : (transact (commandRule c) s').toBlock = (transact (commandRule c) s).toBlock :=
      congrArg (fun b => (commandRule c b).1) h
    rw [answers_cons, answers_cons, h, ih hnext]

/-! ### Deleting the commands that are not of a bank (R151) -/

/-- Only the commands of `own` write the part `bank` of the registers, and what they write there and answer is decided by that part
alone (R32). -/
structure OwnsBank {β : Type} (own : Command → Bool) (bank : Block → β) : Prop where
  unwritten : ∀ {c}, own c = false → ∀ b, bank (commandRule c b).1 = bank b
  writes : ∀ c {b b'}, bank b' = bank b → bank (commandRule c b').1 = bank (commandRule c b).1
  answer : ∀ {c}, own c = true → ∀ {b b'}, bank b' = bank b → (commandRule c b').2 = (commandRule c b).2

theorem ownsBank_isBank32 : OwnsBank isBank32 Block.bank32 where
  unwritten := commandRule_bank32_of_not
  writes := commandRule_bank32_congr
  answer hc := commandRule_answer_congr32 (isBank128_of_isBank32 hc)

theorem ownsBank_isBank128 : OwnsBank isBank128 Block.bank128 where
  unwritten := commandRule_bank128_of_not
  writes := commandRule_bank128_congr
  answer hc := commandRule_answer_congr128 (isBank32_of_isBank128 hc)

/-- One argument for both banks: the two runs keep the same bank, so its commands answer the same, and the deleted ones do not write
it. -/
theorem OwnsBank.delete_others {β : Type} {own : Command → Bool} {bank : Block → β} (hown : OwnsBank own bank)
    (cs : List Command) {s s' : State} (h : bank s'.toBlock = bank s.toBlock) :
    (answers cs s).filter (fun a => own a.1) = answers (cs.filter own) s' ∧
      ∃ t u, runList cs s = .next t ∧ runList (cs.filter own) s' = .next u ∧ bank t.toBlock = bank u.toBlock := by
  induction cs generalizing s s' with
  | nil => exact ⟨rfl, s, s', rfl, rfl, h.symm⟩
  | cons c cs ih =>
    rw [answers_cons, runList_cons]
    cases hc : own c with
    | false =>
      rw [List.filter_cons_of_neg (by simp [hc]), List.filter_cons_of_neg (by simp [hc])]
      exact ih (h.trans (hown.unwritten hc s.toBlock).symm)
    | true =>
      rw [List.filter_cons_of_pos (by simp [hc]), List.filter_cons_of_pos hc, answers_cons, runList_cons, hown.answer hc h]
      obtain ⟨hanswers, hrun⟩ := ih (s := transact (commandRule c) s) (s' := transact (commandRule c) s') (hown.writes c h)
      exact ⟨by rw [hanswers], hrun⟩

/-! ### A RESULT is a read (R146) -/

theorem isRead_of_isResult {c : Command} (h : Claims.isResult c) : ∃ i, decode c = .ok i ∧ isRead i = true := by
  obtain ⟨total, hdecode⟩ | ⟨form, total, hdecode⟩ := h
  · exact ⟨_, hdecode, rfl⟩
  · exact ⟨_, hdecode, rfl⟩

/-- A read leaves the registers, so the commands after it answer as without it. -/
theorem answers_without_read {c : Command} {i : Instr} (hdecode : decode c = .ok i) (hread : isRead i = true)
    (later : List Command) (s : State) :
    answers (c :: later) s = (c, answerOf i s.bank32 s.bank128) :: answers later s := by
  have hkeeps := after_of_keepsRegisters (keepsRegisters_of_isRead hread) s
  have hblock : (after i s).toBlock = s.toBlock := by rw [hkeeps]
  rw [answers_cons_of_next (runCommand_of_ok hdecode s) (after_responses i s), answers_congr later hblock]

/-! ### Commands that succeed without a value, one after the other -/

/-- The command answers (OK, 0), whatever the registers hold. -/
def Succeeds (i : Instr) : Prop := ∀ b d, answerOf i b d = ⟨.ok, 0⟩

theorem execList_pair_of_succeeds {i j : Instr} (hi : Succeeds i) (hj : Succeeds j) (s : State) :
    execList [i, j] s = .next
      { s with bank32 := bank32After j (bank32After i s.bank32), bank128 := bank128After j (bank128After i s.bank128),
               responses := s.responses ++ [⟨.ok, 0⟩, ⟨.ok, 0⟩] } := by
  rw [execList_cons, execList_cons, execList_nil, after, hj, after, hi, List.append_assoc]
  rfl

/-! ### Saving and restoring a bank (R147, R148) -/

/-- The image of a canonical carry loads it. -/
theorem unpack32_pack32 {b : Bank32} (hb : b.Canonical) : unpack32 (pack32 b.cnt b.buf) = some (b.cnt, b.buf) := by
  rw [unpack32_of_marker (marker_pack32 b.cnt b.buf), carryBytes32_pack32 hb]

/-- The image of a canonical carry loads it. -/
theorem unpack128_pack128 {b : Bank128} (hb : b.Canonical) : unpack128 (pack128 b.cnt b.buf) = some (b.cnt, b.buf) := by
  rw [unpack128_of_marker (marker_pack128 b.cnt b.buf), carryBytes128_pack128 hb]

/-- The lane and the packed carry of a canonical bank 32, written in either order over any bank 32, restore it. -/
theorem execList_restore32 {b : Bank32} (hb : b.Canonical) (t : State) :
    execList [.wrh32 b.h, .wrc32 (pack32 b.cnt b.buf)] t =
      .next { t with bank32 := b, responses := t.responses ++ [⟨.ok, 0⟩, ⟨.ok, 0⟩] } ∧
    execList [.wrc32 (pack32 b.cnt b.buf), .wrh32 b.h] t =
      .next { t with bank32 := b, responses := t.responses ++ [⟨.ok, 0⟩, ⟨.ok, 0⟩] } := by
  have hload := unpack32_pack32 hb
  have hlane : Succeeds (.wrh32 b.h) := fun _ _ => rfl
  have hcarry : Succeeds (.wrc32 (pack32 b.cnt b.buf)) := fun _ _ => by simp [answerOf, hload]
  rw [execList_pair_of_succeeds hlane hcarry, execList_pair_of_succeeds hcarry hlane]
  simp [bank32After, bank128After, loadCarry32, hload]

/-- The lanes and the packed carry of a canonical bank 128, written in either order over any bank 128, restore it. -/
theorem execList_restore128 {b : Bank128} (hb : b.Canonical) (t : State) :
    execList [.wrh128 b.h1 b.h2, .wrc128 (pack128 b.cnt b.buf)] t =
      .next { t with bank128 := b, responses := t.responses ++ [⟨.ok, 0⟩, ⟨.ok, 0⟩] } ∧
    execList [.wrc128 (pack128 b.cnt b.buf), .wrh128 b.h1 b.h2] t =
      .next { t with bank128 := b, responses := t.responses ++ [⟨.ok, 0⟩, ⟨.ok, 0⟩] } := by
  have hload := unpack128_pack128 hb
  have hlanes : Succeeds (.wrh128 b.h1 b.h2) := fun _ _ => rfl
  have hcarry : Succeeds (.wrc128 (pack128 b.cnt b.buf)) := fun _ _ => by simp [answerOf, hload]
  rw [execList_pair_of_succeeds hlanes hcarry, execList_pair_of_succeeds hcarry hlanes]
  simp [bank32After, bank128After, loadCarry128, hload]

/-- The image 0 is the packed carry of a stream that has just started. -/
theorem pack32_start (seed : Word32) : pack32 (Bank32.start seed).cnt (Bank32.start seed).buf = 0 := by
  simp [pack32]

/-- The image 0 is the packed carry of a stream that has just started. -/
theorem pack128_start (seed : Word32) : pack128 (Bank128.start seed).cnt (Bank128.start seed).buf = 0 := by
  simp [pack128]

/-! ### The closed form of a beat (R145) -/

/-- Bytes that complete no block, on a canonical bank 32: they stand in the buffer after the valid ones. -/
theorem pushBytes32_of_fit (K : Config) {b : Bank32} (hb : b.Canonical) {xs : List Byte} (hfit : b.cnt.val + xs.length < 4) :
    pushBytes32 K b xs = { h := b.h, cnt := ⟨b.cnt.val + xs.length, hfit⟩, buf := padded 3 (Claims.valid32 b ++ xs) } := by
  obtain ⟨hlane, hcnt, hvalid⟩ := pushBytes32_fit K b xs hfit
  have hbuf := buf_eq_padded (pushBytes32_canonical K b xs hb)
  rw [hvalid] at hbuf
  rw [Bank32.mk.injEq]
  exact ⟨hlane, Fin.ext hcnt, hbuf⟩

/-- Bytes that complete no block, on a canonical bank 128: they stand in the buffer after the valid ones. -/
theorem pushBytes128_of_fit (K : Config) {b : Bank128} (hb : b.Canonical) {xs : List Byte}
    (hfit : b.cnt.val + xs.length < 16) :
    pushBytes128 K b xs =
      { h1 := b.h1, h2 := b.h2, cnt := ⟨b.cnt.val + xs.length, hfit⟩, buf := padded 15 (Claims.valid128 b ++ xs) } := by
  obtain ⟨hlane1, hlane2, hcnt, hvalid⟩ := pushBytes128_fit K b xs hfit
  have hbuf := buf_eq_padded (pushBytes128_canonical K b xs hb)
  rw [hvalid] at hbuf
  rw [Bank128.mk.injEq]
  exact ⟨hlane1, hlane2, Fin.ext hcnt, hbuf⟩

/-- Fewer than four bytes from a block boundary are the carry. -/
theorem pushBytes32_start_rest (K : Config) (h : Word32) {xs : List Byte} (hxs : xs.length < 4) :
    pushBytes32 K (Bank32.start h) xs = { h := h, cnt := ⟨xs.length, hxs⟩, buf := padded 3 xs } := by
  rw [pushBytes32_of_fit K (start32_canonical h) (by simpa using hxs), Bank32.mk.injEq]
  exact ⟨rfl, Fin.ext (Nat.zero_add _), rfl⟩

/-- Four bytes from a block boundary are one block. -/
theorem pushBytes32_start_block (K : Config) (h : Word32) {xs : List Byte} (hxs : xs.length = 4) :
    pushBytes32 K (Bank32.start h) xs = Bank32.start (mix32 K h (le 32 xs)) :=
  pushBytes32_block K (Bank32.start h) xs (by simpa using hxs)

theorem pushBytes32_closedForm : Claims.closedForm32 := by
  intro K b p hb hp
  refine ⟨fun hfit => ?below, fun hfull => ?block⟩
  case below =>
    rw [pushBytes32_of_fit K hb hfit]
    exact ⟨rfl, rfl, rfl⟩
  case block =>
    have hrest : (p.drop (4 - b.cnt.val)).length = b.cnt.val + p.length - 4 := by
      rw [List.length_drop]
      omega
    have hover : pushBytes32 K b p =
        pushBytes32 K (Bank32.start (mix32 K b.h (le 32 (Claims.valid32 b ++ p.take (4 - b.cnt.val)))))
          (p.drop (4 - b.cnt.val)) := pushBytes32_over K b p hfull
    rw [hover, pushBytes32_start_rest K _ (by omega)]
    exact ⟨rfl, hrest, rfl⟩

theorem pushBytes128_closedForm : Claims.closedForm128 := by
  intro K b p hb hp
  refine ⟨fun hfit => ?below, fun hfull => ?block⟩
  case below =>
    rw [pushBytes128_of_fit K hb hfit]
    exact ⟨rfl, rfl, rfl⟩
  case block =>
    have hrest : (p.drop (16 - b.cnt.val)).length = b.cnt.val + p.length - 16 := by
      rw [List.length_drop]
      omega
    have hover : pushBytes128 K b p =
        pushBytes128 K
          (emptyCarry128 (mix128 K b.h1 b.h2 (le 64 ((Claims.valid128 b ++ p.take (16 - b.cnt.val)).take 8))
            (le 64 ((Claims.valid128 b ++ p.take (16 - b.cnt.val)).drop 8))))
          (p.drop (16 - b.cnt.val)) := pushBytes128_over K b p hfull
    rw [hover, pushBytes128_emptyCarry128_rest K _ (by omega)]
    exact ⟨rfl, hrest, rfl⟩

/-- With an empty carry, bank 32 is on a block boundary, and a full beat mixes its payload word. -/
theorem pushBytes32_lanes (K : Config) {b : Bank32} (hcnt : b.cnt = 0) (w : Payload) :
    pushBytes32 K b (lanes w 4) = Bank32.start (mix32 K b.h (w.extractLsb' 0 32)) := by
  have hblock : le 32 (lanes w 4) = w.extractLsb' 0 32 := le_bytes_range' w 0 4
  rw [pushBytes32_block K b _ (by simp [hcnt]), hcnt, ← hblock]
  rfl

/-- With an empty carry, bank 128 is on a block boundary, and a full beat mixes its two payload words. -/
theorem pushBytes128_lanes (K : Config) {b : Bank128} (hcnt : b.cnt = 0) (w : Payload) :
    pushBytes128 K b (lanes w 16) =
      emptyCarry128 (mix128 K b.h1 b.h2 (w.extractLsb' 0 64) (w.extractLsb' 64 64)) := by
  have hlow : le 64 ((lanes w 16).take 8) = w.extractLsb' 0 64 := le_bytes_range' w 0 8
  have hhigh : le 64 ((lanes w 16).drop 8) = w.extractLsb' 64 64 := le_bytes_range' w 8 8
  rw [pushBytes128_block K b _ (by simp [hcnt]), hcnt, ← hlow, ← hhigh]
  rfl

/-! ### Commands that feed bank 32 a stream (R121, R152) -/

theorem bank32After_of_onlyPushes32 {i : Instr} (h : Claims.onlyPushes32 i = true) (b : Bank32) :
    bank32After i b = pushBytes32 mmh3c b (Claims.fed32 i) := by
  cases i with
  | init32 _ | wrh32 _ | wrc32 _ => cases h
  | _ => rfl

/-- Commands that write bank 32 by PUSH32 alone feed it their bytes in order. -/
theorem execList_of_onlyPushes32 {is : List Instr} (h : ∀ i ∈ is, Claims.onlyPushes32 i = true) (s : State) :
    ∃ t, execList is s = .next t ∧ t.bank32 = pushBytes32 mmh3c s.bank32 (is.map Claims.fed32).flatten := by
  induction is generalizing s with
  | nil => exact ⟨s, rfl, rfl⟩
  | cons i is ih =>
    obtain ⟨hi, his⟩ := List.forall_mem_cons.mp h
    obtain ⟨t, hrun, hbank⟩ := ih his (after i s)
    refine ⟨t, by rw [execList_cons, hrun], ?_⟩
    rw [hbank, after_bank32, bank32After_of_onlyPushes32 hi, ← pushBytes32_append, List.map_cons, List.flatten_cons]

theorem onlyPushes32_flatMap_process32 (chunks : List (List Byte)) :
    ∀ i ∈ chunks.flatMap process32, Claims.onlyPushes32 i = true := by
  intro i hi
  obtain ⟨B, -, hB⟩ := List.mem_flatMap.mp hi
  obtain ⟨bs, rfl, -⟩ := (isProcess_process32 B).legal i hB
  rfl

/-- The beats of the chunks carry the bytes of the chunks. -/
theorem flatten_fed32_flatMap_process32 (chunks : List (List Byte)) :
    ((chunks.flatMap process32).map Claims.fed32).flatten = chunks.flatten := by
  induction chunks with
  | nil => rfl
  | cons B chunks ih =>
    rw [List.flatMap_cons, List.map_append, List.flatten_append, (isProcess_process32 B).carries, ih, List.flatten_cons]

/-! ### Bank 32 after a stream is what the one-shot function computes (R141, R152) -/

/-- Block `j` of `B` mixed into the lane: the step of `mixBlocks32`. -/
def mixBlockAt32 (K : Config) (B : List Byte) (h : Word32) (j : Nat) : Word32 :=
  mix32 K h (le 32 ((B.drop (4 * j)).take 4))

theorem mixBlocks32_eq (K : Config) (B : List Byte) (seed : Word32) :
    mixBlocks32 K B seed = (List.range (B.length / 4)).foldl (mixBlockAt32 K B) seed := rfl

/-- The first `q` blocks of `B`, from a block boundary. -/
theorem pushBytes32_blocks (K : Config) (h : Word32) {B : List Byte} {q : Nat} (hq : 4 * q ≤ B.length) :
    pushBytes32 K (Bank32.start h) (B.take (4 * q)) = Bank32.start ((List.range q).foldl (mixBlockAt32 K B) h) := by
  induction q with
  | zero => rfl
  | succ q ih =>
    have hblock : ((B.drop (4 * q)).take 4).length = 4 := by
      rw [List.length_take, List.length_drop]
      omega
    rw [Nat.mul_succ, List.take_add, pushBytes32_append, ih (by omega), pushBytes32_start_block K _ hblock,
      List.range_succ, List.foldl_append]
    rfl

/-- INIT32 and the bytes of `B` leave the lane after the complete blocks, and the remaining bytes as the carry (R152). -/
theorem pushBytes32_start (K : Config) (seed : Word32) (B : List Byte) :
    pushBytes32 K (Bank32.start seed) B =
      { h := mixBlocks32 K B seed, cnt := ⟨B.length % 4, Nat.mod_lt _ (by decide)⟩, buf := tailBytes32 B } := by
  have hrest : (B.drop (4 * (B.length / 4))).length = B.length % 4 := by
    rw [List.length_drop]
    omega
  calc pushBytes32 K (Bank32.start seed) B
      = pushBytes32 K (pushBytes32 K (Bank32.start seed) (B.take (4 * (B.length / 4)))) (B.drop (4 * (B.length / 4))) := by
        rw [← pushBytes32_append, List.take_append_drop]
    _ = pushBytes32 K (Bank32.start (mixBlocks32 K B seed)) (B.drop (4 * (B.length / 4))) := by
        rw [pushBytes32_blocks K _ (by omega), mixBlocks32_eq]
    _ = _ := by
        rw [pushBytes32_start_rest K _ (by omega), Bank32.mk.injEq]
        exact ⟨rfl, Fin.ext hrest, rfl⟩

/-- The digest of a stream is the one-shot digest of its bytes. -/
theorem digest_pushBytes32_start (K : Config) (seed : Word32) (B : List Byte) :
    (pushBytes32 K (Bank32.start seed) B).digest K (BitVec.ofNat 32 B.length) = oneShot32 K B seed := by
  rw [pushBytes32_start]
  rfl

/-- The length of the stream fits the count of its bytes after the last block. -/
theorem lengthFits32_pushBytes32_start (K : Config) (seed : Word32) (B : List Byte) :
    lengthFits32 (BitVec.ofNat 32 B.length) (pushBytes32 K (Bank32.start seed) B).cnt = true := by
  rw [pushBytes32_start, lengthFits32_iff, BitVec.toNat_ofNat]
  exact Nat.mod_mod_of_dvd _ (by decide)

/-- A byte after the last complete block of `W` bytes: the string's, and 0 past the end. -/
theorem getD_drop_blocks (W : Nat) (B : List Byte) (i : Nat) :
    (B.drop (W * (B.length / W))).getD i 0 =
      if i < B.length % W then B.getD (W * (B.length / W) + i) 0 else 0 := by
  have hlength := Nat.div_add_mod B.length W
  split
  · simp [List.getD_eq_getElem?_getD, List.getElem?_drop]
  · rw [List.getD_eq_default _ _ (by rw [List.length_drop]; omega)]

/-- The two halves of block `j` of `B`, each taken from `B` (R142). -/
theorem mixBlockAt128_eq (K : Config) (B : List Byte) (h : Word64 × Word64) (j : Nat) :
    mixBlockAt128 K B h j =
      mix128 K h.1 h.2 (le 64 ((B.drop (16 * j)).take 8)) (le 64 ((B.drop (16 * j + 8)).take 8)) := by
  have hlow : ((B.drop (16 * j)).take 16).take 8 = (B.drop (16 * j)).take 8 := List.take_take
  have hhigh : ((B.drop (16 * j)).take 16).drop 8 = (B.drop (16 * j + 8)).take 8 := by
    rw [List.drop_take, List.drop_drop]
  rw [← hlow, ← hhigh]
  rfl

/-! ### The digest of the empty input (R149) -/

/-- With no block and no byte, only the seed reaches the avalanche. -/
theorem digest_start32 (K : Config) (seed : Word32) : (Bank32.start seed).digest K 0 = fmix32 K seed := by
  simp [Bank32.digest, final32, tail32]

/-- With no block and no byte, the cross-lane adds make twice and three times the seed. -/
theorem digest_start128 (K : Config) (seed : Word32) : (Bank128.start seed).digest K 0 =
    let w1 := fmix64 K (2 * seed.setWidth 64)
    let w2 := fmix64 K (3 * seed.setWidth 64)
    (w1 + w2, w2 + (w1 + w2)) := by
  have htwice (z : Word64) : z + z = 2 * z := (two_mul z).symm
  have hthrice (z : Word64) : z + 2 * z = 3 * z := by ring
  have hlanes : (Bank128.start seed).digest K 0 = crossAvalanche K (seed.setWidth 64) (seed.setWidth 64) := by
    simp [Bank128.digest, final128, tail128]
  rw [hlanes]
  simp only [crossAvalanche, htwice, hthrice]

theorem answerOf_result32_start (seed : Word32) (d : Bank128) :
    answerOf (.result32 0) (Bank32.start seed) d = ⟨.ok, (fmix32 mmh3c seed).setWidth 128⟩ := by
  rw [← digest_start32]
  rfl

theorem answerOf_result128_start (seed : Word32) (b : Bank32) (form : DigestForm) :
    answerOf (.result128 form 0) b (Bank128.start seed) =
      ⟨.ok, digestBytes ((Bank128.start seed).digest mmh3c 0).1 ((Bank128.start seed).digest mmh3c 0).2 form⟩ := rfl

/-! ### The obligations -/

/-- Settles O37: a command of the bank sees the same bank in both runs, and any other leaves it. -/
theorem deletingOtherCommandsChangesNothing : Obligations.DeletingOtherCommandsChangesNothing :=
  fun cs _ => ⟨ownsBank_isBank32.delete_others cs rfl, ownsBank_isBank128.delete_others cs rfl⟩

/-- Settles O39: a RESULT is a read, so it leaves the registers that the commands after it answer from. -/
theorem resultIsPure : Obligations.ResultIsPure := by
  intro c hc
  obtain ⟨i, hdecode, hread⟩ := isRead_of_isResult hc
  have hkeeps := keepsRegisters_of_isRead hread
  have hrun := runCommand_of_ok hdecode
  refine ⟨fun s => ⟨answerOf i s.bank32 s.bank128, ?_, ?_⟩, fun before later s => ?_⟩
  · rw [hrun, after_of_keepsRegisters hkeeps]
  · rw [runList_cons_of_next (hrun s), runList_cons_of_next (hrun _), runList, after_after_of_keepsRegisters hkeeps]
  · obtain ⟨t, ht⟩ := runList_completes before s
    refine ⟨answers before s, answerOf i t.bank32 t.bank128, answers later t, length_answers before s, ?_,
      answers_append ht later⟩
    rw [answers_append ht, answers_without_read hdecode hread]

/-- Settles O40: the images are the lanes and the packed carry, which restore a canonical bank. -/
theorem saveAndRestoreKeepsTheBank : Obligations.SaveAndRestoreKeepsTheBank := by
  rintro s t ⟨h32, h128⟩
  refine ⟨⟨_, _, exec_of_isRead rfl rfl, exec_of_isRead rfl rfl, ?_⟩,
    ⟨_, _, exec_of_isRead rfl rfl, exec_of_isRead rfl rfl, ?_⟩⟩
  · rw [low32_setWidth, low32_setWidth]
    exact execList_restore32 h32 t
  · obtain ⟨hlow, hhigh⟩ := lanes64_append s.bank128.h2 s.bank128.h1
    rw [pair, hlow, hhigh]
    exact execList_restore128 h128 t

/-- Settles O43: the loop does not see where a beat ends, and a legal beat reaches one block at most. -/
theorem pushSplitsAndHasAClosedForm : Obligations.PushSplitsAndHasAClosedForm := by
  refine ⟨fun p q s => ?split32, fun p q s => ?split128, pushBytes32_closedForm, pushBytes128_closedForm, fun w s hcnt => ?full32,
    fun w s hcnt => ?full128⟩
  case split32 =>
    refine ⟨_, _, exec_push32 _ s, execList_pair_of_succeeds (fun _ _ => rfl) (fun _ _ => rfl) s, ?_⟩
    simp [bank32After, bank128After, pushBytes32_append]
  case split128 =>
    refine ⟨_, _, exec_push128 _ s, execList_pair_of_succeeds (fun _ _ => rfl) (fun _ _ => rfl) s, ?_⟩
    simp [bank32After, bank128After, pushBytes128_append]
  case full32 =>
    have hrun := runCommand_of_row (.push32 4 w (by decide)) s
    rw [push32_word (by decide), exec_push32, pushBytes32_lanes mmh3c hcnt, start32_eq] at hrun
    exact hrun
  case full128 =>
    have hrun := runCommand_of_row (.push128 16 w (by decide)) s
    rw [push128_word (by decide), exec_push128, pushBytes128_lanes mmh3c hcnt, emptyCarry128, ← vector_ofFn_const] at hrun
    exact ⟨_, _, rfl, hrun⟩

/-- Settles O44: the script feeds bank 32 its bytes from the start. -/
theorem bank32AfterAStream : Obligations.Bank32AfterAStream := by
  intro seed script s hscript
  obtain ⟨t, hrun, hbank⟩ := execList_of_onlyPushes32 hscript (after (.init32 seed) s)
  have hstream : t.bank32 = _ := hbank.trans (pushBytes32_start mmh3c seed _)
  refine ⟨t, by rw [execList_cons, hrun], ?_⟩
  rw [hstream]
  refine ⟨rfl, rfl, fun i => ?_⟩
  exact (getElem_padded _ _ _ i.isLt).trans (getD_drop_blocks 4 _ i.val)

/-- Settles O45: the script feeds bank 128 its bytes from the start. -/
theorem bank128AfterAStream : Obligations.Bank128AfterAStream := by
  intro seed script s hscript
  obtain ⟨t, hrun, hbank⟩ := execList_of_onlyPushes128 hscript (after (.init128 seed) s)
  have hstream : t.bank128 = _ := hbank.trans (pushBytes128_start mmh3c seed _)
  refine ⟨t, by rw [execList_cons, hrun], ?_⟩
  rw [hstream]
  refine ⟨?_, rfl, fun i => ?_⟩
  · simp only [mixBlocks128_eq, BitVec.ofNat_toNat, ← mixBlockAt128_eq]
  · exact (getElem_padded _ _ _ i.isLt).trans (getD_drop_blocks 16 _ i.val)

/-- Settles O46: the chunks feed bank 32 their bytes from the start, and the digest of that stream is the one-shot digest. The bound
on the length is not needed: the count agrees with the length modulo 2^32 too, which 4 divides. -/
theorem chunkingInvariance32 : Obligations.ChunkingInvariance32 := by
  intro seed chunks s _
  obtain ⟨t, hrun, hbank⟩ := execList_of_onlyPushes32 (onlyPushes32_flatMap_process32 chunks) (after (.init32 seed) s)
  rw [flatten_fed32_flatMap_process32] at hbank
  have hstream : t.bank32 = pushBytes32 mmh3c (Bank32.start seed) chunks.flatten := hbank
  refine ⟨after (.result32 (BitVec.ofNat 32 chunks.flatten.length)) t, ?_, ?_⟩
  · rw [List.cons_append, execList_cons, execList_append hrun, execList_cons, execList_nil]
  · rw [after_responses, List.getLast?_concat, answerOf, hstream, lengthFits32_pushBytes32_start, digest_pushBytes32_start,
      checked_true, BitVec.ofNat_toNat]

/-- Settles O16: NOP is a read of nothing, and its word decodes to it whatever the payload. -/
theorem nopOnlyAnswers : Obligations.NopOnlyAnswers := by
  intro w s
  have hexec : exec .nop s = Claims.onlyAnswers s .ok 0 := exec_of_isRead rfl rfl
  exact ⟨(runCommand_of_row (.nop w) s).trans hexec, hexec⟩

/-- Settles O41: INIT starts the stream whose lanes are the seed and whose packed carry is 0. -/
theorem initIsWrhThenWrc : Obligations.InitIsWrhThenWrc := by
  refine fun seed s => ⟨⟨_, exec_init32 seed s, ?_⟩, ⟨_, exec_init128 seed s, ?_⟩⟩
  · have hrestore := (execList_restore32 (start32_canonical seed) s).1
    rw [pack32_start] at hrestore
    rw [← start32_eq, List.append_assoc]
    exact hrestore
  · have hrestore := (execList_restore128 (start128_canonical seed) s).1
    rw [pack128_start] at hrestore
    rw [BitVec.ofNat_toNat, List.append_assoc]
    exact hrestore

/-- Settles O42: the length 0 fits the empty carry that INIT leaves, and the digest is that of a stream with no bytes. -/
theorem emptyInputDigests : Obligations.EmptyInputDigests := by
  refine fun seed s => ⟨⟨after (.result32 0) (after (.init32 seed) s), ?_, ?_⟩,
    ⟨after (.result128 .full 0) (after (.init128 seed) s), ?_, ?_⟩⟩
  · rw [execList_cons, execList_cons, execList_nil]
  · rw [after_responses, after_bank32, bank32After, answerOf_result32_start, after_responses, List.append_assoc,
      BitVec.ofNat_toNat]
    rfl
  · rw [execList_cons, execList_cons, execList_nil]
  · rw [after_responses, after_bank128, bank128After, answerOf_result128_start, digest_start128, after_responses,
      List.append_assoc, BitVec.ofNat_toNat]
    rfl

end Sys2Proof.Proofs
end

section
/-!
The errors: which commands answer one, and that an error answer carries no data and leaves every register. The theorems that settle the
obligations of 60_exceptions.md stand at the end.
-/

namespace Sys2Proof.Proofs

open Sys2Proof Sys2Proof.Machine

/-! ### A transaction and its response (R50) -/

/-- The state after a command and the response it added are those of the command's rule. -/
theorem eq_transact_of_runCommand {c : Command} {s t : State} {r : Response} (hrun : runCommand c s = .next t)
    (hresp : t.responses = s.responses ++ [r]) : t = transact (commandRule c) s ∧ r = (commandRule c s.toBlock).2 := by
  obtain rfl : transact (commandRule c) s = t := by simpa [runCommand_eq_transact] using hrun
  exact ⟨rfl, by simpa using hresp.symm⟩

/-- A status other than `ILLEGAL_COMMAND` is answered by the command of a row of the opcode table. -/
theorem commandRule_status_eq_iff {st : Status} (hst : st ≠ .illegalCommand) (c : Command) (b : Block) :
    (commandRule c b).2.status = st ↔ ∃ i, Row c i ∧ (answerOf i b.bank32 b.bank128).status = st := by
  constructor
  · intro h
    cases hdecode : decode c with
    | ok i => exact ⟨i, row_of_decode_ok hdecode, by rwa [commandRule_of_ok hdecode] at h⟩
    | illegal why =>
      rw [commandRule_of_illegal hdecode] at h
      exact absurd h.symm hst
  · rintro ⟨i, hrow, h⟩
    rwa [commandRule_of_ok (decode_of_row hrow)]

/-! ### An error writes no register (R164) -/

/-- A failed check answers no data. -/
theorem checked_rdata_of_status_ne_ok {holds : Bool} {value : Payload} {otherwise : Status}
    (h : (checked holds value otherwise).status ≠ .ok) : (checked holds value otherwise).rdata = 0 := by
  cases holds with
  | true => exact absurd rfl h
  | false => rfl

/-- WRC32 that answers an error loads nothing. -/
theorem loadCarry32_of_error {w : Word32} (h : (checked (unpack32 w).isSome 0 .invalidCarry).status ≠ .ok) (b : Bank32) :
    loadCarry32 w b = b := by
  cases hunpack : unpack32 w with
  | none => simp [loadCarry32, hunpack]
  | some carry => simp [hunpack] at h

/-- WRC128 that answers an error loads nothing. -/
theorem loadCarry128_of_error {w : Payload} (h : (checked (unpack128 w).isSome 0 .invalidCarry).status ≠ .ok) (d : Bank128) :
    loadCarry128 w d = d := by
  cases hunpack : unpack128 w with
  | none => simp [loadCarry128, hunpack]
  | some carry => simp [hunpack] at h

/-- Only the commands with a check can answer an error; a RESULT never writes, and the WRC loads nothing. -/
theorem effect_of_error {i : Instr} {b : Bank32} {d : Bank128} (h : (answerOf i b d).status ≠ .ok) :
    bank32After i b = b ∧ bank128After i d = d ∧ (answerOf i b d).rdata = 0 := by
  cases i with
  | result32 _ | result128 _ _ => exact ⟨rfl, rfl, checked_rdata_of_status_ne_ok h⟩
  | wrc32 w => exact ⟨loadCarry32_of_error h b, rfl, checked_rdata_of_status_ne_ok h⟩
  | wrc128 w => exact ⟨rfl, loadCarry128_of_error h d, checked_rdata_of_status_ne_ok h⟩
  | _ => exact absurd rfl h

/-- An error answer carries no data and leaves the registers, whether the word is illegal or its command failed. -/
theorem commandRule_of_error {c : Command} {b : Block} (h : (commandRule c b).2.status ≠ .ok) :
    commandRule c b = (b, ⟨(commandRule c b).2.status, 0⟩) := by
  cases hdecode : decode c with
  | ok i =>
    rw [commandRule_of_ok hdecode] at h ⊢
    obtain ⟨h32, h128, hdata⟩ := effect_of_error h
    rw [h32, h128, ← hdata]
  | illegal why =>
    rw [commandRule_of_illegal hdecode]
    rfl

/-! ### The commands that answer `INVALID_CARRY` (R162) -/

/-- The rows whose command loads a malformed carry: the marker of WRC32 is byte 0 of the payload and that of WRC128 is byte 8. -/
theorem exists_row_loadsBadCarry_iff (c : Command) : (∃ i, Row c i ∧ LoadsBadCarry i) ↔
    (c.cmd = 0x00000007 ∧ 4 ≤ (byteAt c.wdata 0).toNat) ∨ (c.cmd = 0x00000017 ∧ 16 ≤ (byteAt c.wdata 8).toNat) := by
  have hmarker32 (w : Payload) : LoadsBadCarry (.wrc32 (w.extractLsb' 0 32)) ↔ 4 ≤ (byteAt w 0).toNat := by
    rw [← byteAt_extractLsb' w 0 32 (j := 0) (by decide)]
    exact unpack32_eq_none_iff _
  have hmarker128 (w : Payload) : LoadsBadCarry (.wrc128 w) ↔ 16 ≤ (byteAt w 8).toNat := unpack128_eq_none_iff w
  constructor
  · rintro ⟨i, hrow, hbad⟩
    cases hrow with
    | wrc32 w => exact .inl ⟨rfl, (hmarker32 w).mp hbad⟩
    | wrc128 w => exact .inr ⟨rfl, (hmarker128 w).mp hbad⟩
    | _ => exact hbad.elim
  · obtain ⟨cmd, w⟩ := c
    rintro (⟨rfl, hbad⟩ | ⟨rfl, hbad⟩)
    · exact ⟨_, .wrc32 w, (hmarker32 w).mpr hbad⟩
    · exact ⟨_, .wrc128 w, (hmarker128 w).mpr hbad⟩

/-! ### The commands that answer `INVALID_LENGTH` (R163) -/

/-- The command is a RESULT whose length does not fit the count of its bank. -/
def HasWrongLength (i : Instr) (b : Bank32) (d : Bank128) : Prop :=
  match i with
  | .result32 total => total.toNat % 4 ≠ b.cnt.val
  | .result128 _ total => total.toNat % 16 ≠ d.cnt.val
  | _ => False

/-- A check that would answer `INVALID_LENGTH` answers it exactly when it fails. -/
theorem checked_status_eq_invalidLength_iff (holds : Bool) (value : Payload) :
    (checked holds value .invalidLength).status = .invalidLength ↔ ¬ holds = true := by
  cases holds <;> simp

/-- Those commands, and no others, are answered with `INVALID_LENGTH`. -/
theorem answerOf_status_eq_invalidLength_iff (i : Instr) (b : Bank32) (d : Bank128) :
    (answerOf i b d).status = .invalidLength ↔ HasWrongLength i b d := by
  cases i with
  | result32 total => exact (checked_status_eq_invalidLength_iff _ _).trans (not_congr (lengthFits32_iff total b.cnt))
  | result128 form total => exact (checked_status_eq_invalidLength_iff _ _).trans (not_congr (lengthFits128_iff total d.cnt))
  | wrc32 w => cases hunpack : unpack32 w <;> simp [answerOf, HasWrongLength, hunpack]
  | wrc128 w => cases hunpack : unpack128 w <;> simp [answerOf, HasWrongLength, hunpack]
  | _ => simp [answerOf, HasWrongLength]

/-- The low bits of a payload are those of its length operand. -/
theorem toNat_low_bits (w : Payload) {k : Nat} (hk : k ≤ 32) :
    (w.extractLsb' 0 k).toNat = (w.extractLsb' 0 32).toNat % 2 ^ k := by
  rw [BitVec.extractLsb'_toNat, BitVec.extractLsb'_toNat, Nat.mod_mod_of_dvd _ (Nat.pow_dvd_pow 2 hk)]

/-- The three words of RESULT128, one for each digest form (R64). -/
theorem mem_result128_words_iff (v : Word32) :
    v ∈ [0x00000013, 0x00000053, 0x00000093] ↔ ∃ f, v = commandWord 3 1 (trOfForm f) 0 := by
  constructor
  · intro h
    fin_cases h
    · exact ⟨.full, rfl⟩
    · exact ⟨.first8, rfl⟩
    · exact ⟨.first4, rfl⟩
  · rintro ⟨f, rfl⟩
    cases f <;> decide

/-- The rows whose command has a wrong length: of RESULT32 the two low bits count, of RESULT128 in any form the four low bits. -/
theorem exists_row_hasWrongLength_iff (c : Command) (b : Bank32) (d : Bank128) : (∃ i, Row c i ∧ HasWrongLength i b d) ↔
    (c.cmd = 0x00000003 ∧ (c.wdata.extractLsb' 0 2).toNat ≠ b.cnt.val) ∨
      (c.cmd ∈ [0x00000013, 0x00000053, 0x00000093] ∧ (c.wdata.extractLsb' 0 4).toNat ≠ d.cnt.val) := by
  rw [mem_result128_words_iff, toNat_low_bits c.wdata (by decide : 2 ≤ 32), toNat_low_bits c.wdata (by decide : 4 ≤ 32)]
  constructor
  · rintro ⟨i, hrow, hwrong⟩
    cases hrow with
    | result32 w => exact .inl ⟨rfl, hwrong⟩
    | result128 f w => exact .inr ⟨⟨f, rfl⟩, hwrong⟩
    | _ => exact hwrong.elim
  · obtain ⟨cmd, w⟩ := c
    rintro (⟨rfl, hwrong⟩ | ⟨⟨f, rfl⟩, hwrong⟩)
    · exact ⟨_, .result32 w, hwrong⟩
    · exact ⟨_, .result128 f w, hwrong⟩

/-! ### The obligations -/

/-- Settles O32: the rule of a command that answers an error leaves the registers and answers no data. -/
theorem errorsWriteNothing : Obligations.ErrorsWriteNothing := by
  intro c s t r hrun hresp herror
  obtain ⟨rfl, rfl⟩ := eq_transact_of_runCommand hrun hresp
  have hrule := commandRule_of_error herror
  refine ⟨by rw [hrule], ?_⟩
  rw [transact, hrule]

/-- Settles O33: no command but a WRC with a malformed image answers `INVALID_CARRY`, and the opcode table says which words those
are. -/
theorem invalidCarryIsRaisedExactlyByBadMarkers : Obligations.InvalidCarryIsRaisedExactlyByBadMarkers := by
  intro c s t r hrun hresp
  obtain ⟨-, rfl⟩ := eq_transact_of_runCommand hrun hresp
  rw [commandRule_status_eq_iff (by decide)]
  simp only [answerOf_status_eq_invalidCarry_iff]
  exact exists_row_loadsBadCarry_iff c

/-- Settles O34: no command but a RESULT with a wrong length answers `INVALID_LENGTH`, and the opcode table says which words those
are. -/
theorem invalidLengthIsRaisedExactlyByWrongLowBits : Obligations.InvalidLengthIsRaisedExactlyByWrongLowBits := by
  intro c s t r hrun hresp
  obtain ⟨-, rfl⟩ := eq_transact_of_runCommand hrun hresp
  rw [commandRule_status_eq_iff (by decide)]
  simp only [answerOf_status_eq_invalidLength_iff]
  exact exists_row_hasWrongLength_iff c s.bank32 s.bank128

/-- Settles O35: the error leaves the registers, and they decide what every later command does. -/
theorem errorsLeaveNoTrace : Obligations.ErrorsLeaveNoTrace := by
  intro c s t r hrun hresp herror
  obtain ⟨-, hstate⟩ := errorsWriteNothing c s t r hrun hresp herror
  have hrule : commandRule c s.toBlock = (s.toBlock, r) := by
    obtain ⟨-, rfl⟩ := eq_transact_of_runCommand hrun hresp
    rw [commandRule_of_error herror]
  subst hstate
  refine ⟨fun d => ⟨_, _, runCommand_eq_transact d s, transact_responses s _, runCommand_eq_transact d _⟩, ?_⟩
  rw [runCommand_eq_transact, transact, hrule]

end Sys2Proof.Proofs
end

section
/-!
The reset event of 70_reset_and_hazards.md: the reset state with every register written out as 0 (R181), and the theorem that
settles the obligation of that file.
-/

namespace Sys2Proof.Proofs

open Sys2Proof Sys2Proof.Machine

/-! ### The reset state, register by register (R34, R181) -/

theorem bank32_reset_eq_zeros : Bank32.reset = { h := 0, cnt := 0, buf := Vector.ofFn fun _ => 0 } := by
  rw [Bank32.reset, vector_ofFn_const]

theorem bank128_reset_eq_zeros : Bank128.reset = { h1 := 0, h2 := 0, cnt := 0, buf := Vector.ofFn fun _ => 0 } := by
  rw [Bank128.reset, vector_ofFn_const]

/-! ### The obligation -/

/-- Settles O9: the step that takes the reset request leaves the reset state, whatever the registers held, and both of its banks are
all zeros. -/
theorem resetEventZeroesEveryRegister : Obligations.ResetEventZeroesEveryRegister := by
  intro s hs
  rw [step_of_presented_reset hs, State.reset, Block.reset, bank32_reset_eq_zeros, bank128_reset_eq_zeros]

end Sys2Proof.Proofs
end
